-- ==== Sys2Proof/Word.lean ====
section
/-! DEFINITION. The two widths of the machine: a byte (bus, registers, memory cells, addresses: `00_scope.md` R8, R10) and
a nibble (the two halves of an opcode byte: `30_encoding.md` R57). All arithmetic on them is unsigned and wraps (R11). -/

namespace Sys2Proof

/-- A value of the bus, a register or a memory cell, and an address (R8, R10). -/
abbrev Byte := BitVec 8

/-- Half of an opcode byte: the addressing mode or the mnemonic (R57). -/
abbrev Nibble := BitVec 4

end Sys2Proof
end

