-- ==== Sys2Proof/Machine/ControlWord.lean ====
section
/-! DEFINITION. Control words: sets of the 15 signals the control-word decoder drives (`40_sequencer.md` R81, R82). -/

namespace Sys2Proof.Machine

/-- The 15 signals, in the order of their bits (R81). -/
inductive Signal where
  | halt
  | latchMar
  | enableMem
  | latchMem
  | latchI
  | enableI
  | latchA
  | enableA
  | enableAlu
  | sub
  | latchB
  | latchO
  | incPc
  | enablePc
  | latchPc
deriving DecidableEq, Repr

/-- A set of signals: a field is true exactly when its signal is in the set (R82; log entry 7). No function depends on the
order of the fields, which is the order of the bits of R81. -/
structure ControlWord where
  halt : Bool := false
  latchMar : Bool := false
  enableMem : Bool := false
  latchMem : Bool := false
  latchI : Bool := false
  enableI : Bool := false
  latchA : Bool := false
  enableA : Bool := false
  enableAlu : Bool := false
  sub : Bool := false
  latchB : Bool := false
  latchO : Bool := false
  incPc : Bool := false
  enablePc : Bool := false
  latchPc : Bool := false
deriving DecidableEq, Repr

/-- `S ∈ cw` (R12). -/
def ControlWord.has (cw : ControlWord) : Signal → Bool
  | .halt => cw.halt
  | .latchMar => cw.latchMar
  | .enableMem => cw.enableMem
  | .latchMem => cw.latchMem
  | .latchI => cw.latchI
  | .enableI => cw.enableI
  | .latchA => cw.latchA
  | .enableA => cw.enableA
  | .enableAlu => cw.enableAlu
  | .sub => cw.sub
  | .latchB => cw.latchB
  | .latchO => cw.latchO
  | .incPc => cw.incPc
  | .enablePc => cw.enablePc
  | .latchPc => cw.latchPc

/-- The bit of each signal (R81). -/
def Signal.bit : Signal → Nat
  | .halt => 0
  | .latchMar => 1
  | .enableMem => 2
  | .latchMem => 3
  | .latchI => 4
  | .enableI => 5
  | .latchA => 6
  | .enableA => 7
  | .enableAlu => 8
  | .sub => 9
  | .latchB => 10
  | .latchO => 11
  | .incPc => 12
  | .enablePc => 13
  | .latchPc => 14

/-- The signals of R81. -/
def Signal.all : List Signal :=
  [.halt, .latchMar, .enableMem, .latchMem, .latchI, .enableI, .latchA, .enableA, .enableAlu, .sub, .latchB, .latchO,
    .incPc, .enablePc, .latchPc]

/-- `LATCHES` (R81). -/
def Signal.latches : List Signal := [.latchA, .latchB, .latchMar, .latchI, .latchO, .latchMem, .latchPc]

/-- `ENABLES` (R81), in the order R96 lists the producers. -/
def Signal.enables : List Signal := [.enableA, .enableI, .enablePc, .enableMem, .enableAlu]

/-- The 15-bit word of the microcode listing (R82): presentation only. -/
def ControlWord.bits (cw : ControlWord) : BitVec 15 :=
  Signal.all.foldr (fun sig acc => if cw.has sig then acc ||| BitVec.twoPow 15 sig.bit else acc) 0

/-- `(cw ∩ LATCHES) ≠ ∅` (R88). -/
def ControlWord.anyLatch (cw : ControlWord) : Bool :=
  cw.latchA || cw.latchB || cw.latchMar || cw.latchI || cw.latchO || cw.latchMem || cw.latchPc

end Sys2Proof.Machine
end

