-- ==== Sys2Proof/Machine/State.lean ====
section
/-! DEFINITION. The state of the machine, exactly the record of `10_state.md` R37, with its reset values (R38); the fault
kinds (`60_exceptions.md` R135) and the ways the model refuses. -/

namespace Sys2Proof.Machine

/-- The six fault kinds (R135). A T-state or a load pulse that raises one answers a NEXT state in which the field `fault`
holds the kind (R93, R113): no step of the model ends in `Host.Outcome.fault`. All six are safe: they stop the machine
where the spec says it stops. -/
inductive Fault where
  /-- Raised by a T-state with two or more enable signals (R86, R136). -/
  | busContention
  /-- Raised by a T-state that latches while nothing drives the bus (R88, R137). -/
  | latchWithoutData
  /-- Raised by a T-state with both `LATCH_PC` and `INC_PC` (R90, R138). -/
  | illegalControlWord
  /-- Raised by `INC_PC` at PC = 0xFF under `PC_OVERFLOW = fault` (R91, R139). -/
  | pcOverflow
  /-- Raised by the host's load at the pulse for address 256 (R140, R161). -/
  | loadAddressOutOfRange
  /-- Raised by the host's load at a value outside 0..255 (R140, R161). -/
  | loadValueOutOfRange
deriving DecidableEq, Repr

/-- Why the model refuses. -/
inductive Refusal where
  /-- An instruction with no meaning yet; raised by no arm of `exec`. Safe. -/
  | notModelled (mnemonic : String)
  /-- A step of a faulted machine is refused and returns the fault (R95). Safe: it is what the spec says. -/
  | faulted (kind : Fault)
  /-- A T-state at an index with no control word in `dec`, in states no run reaches (log entry 6). Safe. -/
  | noControlWord
  /-- A load that does not come right after a reset (R159). Safe: it is what the spec says. -/
  | loadNotAfterReset
deriving DecidableEq, Repr

/-- The 256 bytes of memory (R34), as the list of those that are not 0x00, by strictly rising address (log entry 8). -/
abbrev Memory := List Host.Cell

/-- The machine state (R37). -/
structure State where
  /-- The accumulator (R16). -/
  a : Byte
  /-- The secondary operand register (R17). -/
  b : Byte
  /-- The memory address register (R18). -/
  mar : Byte
  /-- The instruction register (R19). -/
  i : Byte
  /-- The program counter (R20, R21). -/
  pc : Byte
  /-- The output register (R22). -/
  o : Byte
  /-- The memory (R34). -/
  mem : Memory
  /-- The sticky halt flag, held with PC (R27). -/
  halted : Bool
  /-- The T-state index (R29). -/
  t : Nat
  /-- The decoded execute microprogram (R30). -/
  dec : List ControlWord
  /-- The fault state (R31). -/
  fault : Option Fault
  /-- The output events, oldest first (R32). -/
  out : List Byte
  /-- The opcodes reported as unmapped, oldest first (R33). -/
  reports : List Byte
deriving DecidableEq, Repr

/-- The state reset leaves (R38, R153): every field at the value the spec gives. -/
def State.reset : State where
  a := 0x00
  b := 0x00
  mar := 0x00
  i := 0x00
  pc := 0x00
  o := 0x00
  mem := []
  halted := false
  t := 0
  dec := []
  fault := none
  out := []
  reports := []

end Sys2Proof.Machine
end

