-- ==== Sys2Proof/Machine/Flags.lean ====
section
/-! DEFINITION. The arithmetic unit and the status bit. The hardware has no condition codes: no carry, borrow, zero, sign or
overflow is produced or kept (`10_state.md` R25, R26), so there is no flag computation; the one status bit is the halt flag
(R27). -/

namespace Sys2Proof.Machine

/-- `alu(a, b, sub)` (R25): the sum or the difference modulo 256, and nothing else. -/
def alu (a b : Byte) (subtract : Bool) : Byte := if subtract then a - b else a + b

/-- Sets the sticky halt flag; only reset clears it (R27, R92). -/
def State.setHalted (s : State) : State := { s with halted := true }

end Sys2Proof.Machine
end

