-- ==== Sys2Proof/Config.lean ====
section
/-! DEFINITION. The three configuration parameters of `00_scope.md` R9. The spec's source leaves each open, so the machine
the model speaks of takes them from `Config.chip`, a constant with no body: nothing can be proved about which values it
holds, and what is proved of the model holds for every value (log entry 1). The opcode table is configuration too
(`10_state.md` R36) and is built in Machine/Microcode.lean. -/

namespace Sys2Proof

/-- `UNDEF_OP`: the default microprogram of an unmapped opcode (R9, R100). -/
inductive UndefOp where
  | halt
  | nop
deriving DecidableEq, Repr, Inhabited

/-- `PC_OVERFLOW`: what incrementing PC at 0xFF does (R9, R20). -/
inductive PcOverflow where
  | fault
  | wrap
deriving DecidableEq, Repr, Inhabited

/-- `BRANCH_SHAPE`: which byte a branching mode puts into PC (R9, R107, R108). -/
inductive BranchShape where
  | operand
  | fetched
deriving DecidableEq, Repr, Inhabited

/-- The parameters of one machine; fixed for its lifetime, and kept by reset (R36, R155). -/
structure Config where
  undefOp : UndefOp
  pcOverflow : PcOverflow
  branchShape : BranchShape
deriving DecidableEq, Repr, Inhabited

/-- The reference configuration, which the spec's test vectors use (R9). -/
def Config.reference : Config := { undefOp := .halt, pcOverflow := .fault, branchShape := .operand }

/-- The parameters of the machine that `exec` and `step` speak of. DESIGN CHOICE (log entry 1): left without a value. Safe. -/
opaque Config.chip : Config

end Sys2Proof
end

