-- ==== Sys2Proof/Syntax.lean ====
section
/-! DEFINITION. The instructions: one constructor for each of the 14 rows of the opcode table (`30_encoding.md` R61), and
the mnemonics (R60) and addressing modes (R59) the table is built from. -/

namespace Sys2Proof

/-- The six addressing modes (R59). -/
inductive AddrMode where
  | absolute
  | indirect
  | immediate
  | absoluteBranching
  | indirectBranching
  | implied
deriving DecidableEq, Repr

/-- The seven mnemonics (R60). -/
inductive Mnemonic where
  | lda
  | add
  | sub
  | jmp
  | out
  | nop
  | hlt
deriving DecidableEq, Repr

/-- The instructions, in the order of the opcode table (R61). The argument is the operand byte (R58): the data itself
(`immediate`), an address, or the address of a pointer. -/
inductive Instr where
  | ldaAbsolute (operand : Byte)
  | addAbsolute (operand : Byte)
  | subAbsolute (operand : Byte)
  | ldaIndirect (operand : Byte)
  | addIndirect (operand : Byte)
  | subIndirect (operand : Byte)
  | ldaImmediate (operand : Byte)
  | addImmediate (operand : Byte)
  | subImmediate (operand : Byte)
  | jmpAbsolute (operand : Byte)
  | jmpIndirect (operand : Byte)
  | out
  | nop
  | hlt
deriving DecidableEq, Repr

/-- An instruction as a programmer or an encoder names it: a mnemonic, a mode and an operand of any size. Not every form is
an instruction; `Form.wellFormed` says which are. -/
structure Form where
  mnemonic : Mnemonic
  mode : AddrMode
  operand : Option Nat
deriving DecidableEq, Repr

end Sys2Proof
end

