-- ==== Sys2Proof/WellFormed.lean ====
section
/-! DEFINITION. Which forms are instructions: the mode is one the mnemonic declares (`30_encoding.md` R60), an operand is
there exactly if the mode takes one (R56), and it is a byte (R58, R74). -/

namespace Sys2Proof

/-- The legal modes of a mnemonic (R60). -/
def Mnemonic.legalModes : Mnemonic → List AddrMode
  | .lda => [.immediate, .absolute, .indirect]
  | .add => [.immediate, .absolute, .indirect]
  | .sub => [.immediate, .absolute, .indirect]
  | .jmp => [.absoluteBranching, .indirectBranching]
  | .out => [.implied]
  | .nop => [.implied]
  | .hlt => [.implied]

/-- Implied mode takes no operand byte; every other mode takes one (R56). -/
def AddrMode.takesOperand : AddrMode → Bool
  | .implied => false
  | .absolute | .indirect | .immediate | .absoluteBranching | .indirectBranching => true

/-- Check 1: the mnemonic declares the mode (R60, R62). -/
def Form.modeLegal (f : Form) : Bool := f.mnemonic.legalModes.contains f.mode

/-- Check 2: there is an operand exactly if the mode takes one (R56, R77). -/
def Form.operandFits (f : Form) : Bool := f.operand.isSome == f.mode.takesOperand

/-- Check 3: the operand is in 0..255 (R58, R74). -/
def Form.operandInRange (f : Form) : Bool := f.operand.all (· < 256)

/-- A form that stands for an instruction. -/
def Form.wellFormed (f : Form) : Bool := f.modeLegal && f.operandFits && f.operandInRange

/-- The form of an instruction: its row of the opcode table (R61) and its operand byte. -/
def Instr.form : Instr → Form
  | .ldaAbsolute v => ⟨.lda, .absolute, some v.toNat⟩
  | .addAbsolute v => ⟨.add, .absolute, some v.toNat⟩
  | .subAbsolute v => ⟨.sub, .absolute, some v.toNat⟩
  | .ldaIndirect v => ⟨.lda, .indirect, some v.toNat⟩
  | .addIndirect v => ⟨.add, .indirect, some v.toNat⟩
  | .subIndirect v => ⟨.sub, .indirect, some v.toNat⟩
  | .ldaImmediate v => ⟨.lda, .immediate, some v.toNat⟩
  | .addImmediate v => ⟨.add, .immediate, some v.toNat⟩
  | .subImmediate v => ⟨.sub, .immediate, some v.toNat⟩
  | .jmpAbsolute v => ⟨.jmp, .absoluteBranching, some v.toNat⟩
  | .jmpIndirect v => ⟨.jmp, .indirectBranching, some v.toNat⟩
  | .out => ⟨.out, .implied, none⟩
  | .nop => ⟨.nop, .implied, none⟩
  | .hlt => ⟨.hlt, .implied, none⟩

/-- An instruction is well formed when its form is. Operands are bytes, so every instruction is: the operands of ill-formed
forms cannot be written as an `Instr` (the tests show the three checks refusing forms). -/
def Instr.wellFormed (i : Instr) : Bool := i.form.wellFormed

end Sys2Proof
end

