-- ==== Sys2Proof/Decode.lean ====
section
/-! DEFINITION. From bytes to instructions and back (`30_encoding.md` R56 to R68). The opcode byte is taken apart and put
together by its two nibbles (R57), and the nibble tables are those of R59 and R60. -/

namespace Sys2Proof

/-- The high nibble of each mode (R59). -/
def AddrMode.nibble : AddrMode → Nibble
  | .absolute => 0x0
  | .indirect => 0x1
  | .immediate => 0x2
  | .absoluteBranching => 0x3
  | .indirectBranching => 0x4
  | .implied => 0xF

/-- The low nibble of each mnemonic (R60). -/
def Mnemonic.nibble : Mnemonic → Nibble
  | .lda => 0x0
  | .add => 0x1
  | .sub => 0x2
  | .jmp => 0x3
  | .out => 0xD
  | .nop => 0xE
  | .hlt => 0xF

/-- The six modes, in the order of their nibbles (R59). -/
def AddrMode.all : List AddrMode :=
  [.absolute, .indirect, .immediate, .absoluteBranching, .indirectBranching, .implied]

/-- The seven mnemonics, in the order of their nibbles (R60). -/
def Mnemonic.all : List Mnemonic := [.lda, .add, .sub, .jmp, .out, .nop, .hlt]

/-- The mode a high nibble selects; 0x5 to 0xE select none (R59). -/
def AddrMode.ofNibble (n : Nibble) : Option AddrMode := AddrMode.all.find? (fun m => m.nibble == n)

/-- The mnemonic a low nibble selects; 0x4 to 0xC select none (R60). -/
def Mnemonic.ofNibble (n : Nibble) : Option Mnemonic := Mnemonic.all.find? (fun mn => mn.nibble == n)

/-- `v[7:4]` (R10). -/
def highNibble (v : Byte) : Nibble := v.extractLsb' 4 4

/-- `v[3:0]` (R10). -/
def lowNibble (v : Byte) : Nibble := v.extractLsb' 0 4

/-- opcode = (mode << 4) | mn (R57), the concatenation of two nibbles (R10). -/
def opcodeByte (mn : Mnemonic) (m : AddrMode) : Byte := m.nibble ++ mn.nibble

/-- The mnemonic and mode of a mapped opcode; `none` for the 242 unmapped bytes, a pair of legal nibbles that no mnemonic
declares among them (R61, R65). -/
def opcodeFields (op : Byte) : Option (Mnemonic × AddrMode) :=
  match Mnemonic.ofNibble (lowNibble op), AddrMode.ofNibble (highNibble op) with
  | some mn, some m => if mn.legalModes.contains m then some (mn, m) else none
  | _, _ => none

/-- The instruction of a row of the opcode table (R61) with its operand byte; implied rows take none. -/
def instrOfRow (mn : Mnemonic) (m : AddrMode) (operand : Byte) : Option Instr :=
  match mn, m with
  | .lda, .absolute => some (.ldaAbsolute operand)
  | .add, .absolute => some (.addAbsolute operand)
  | .sub, .absolute => some (.subAbsolute operand)
  | .lda, .indirect => some (.ldaIndirect operand)
  | .add, .indirect => some (.addIndirect operand)
  | .sub, .indirect => some (.subIndirect operand)
  | .lda, .immediate => some (.ldaImmediate operand)
  | .add, .immediate => some (.addImmediate operand)
  | .sub, .immediate => some (.subImmediate operand)
  | .jmp, .absoluteBranching => some (.jmpAbsolute operand)
  | .jmp, .indirectBranching => some (.jmpIndirect operand)
  | .out, .implied => some .out
  | .nop, .implied => some .nop
  | .hlt, .implied => some .hlt
  | _, _ => none

/-- Why bytes are no instruction. None of these is a fault of the machine: an unmapped opcode runs its default microprogram
(R65), and the machine always has a byte to read. -/
inductive DecodeError where
  /-- There is no byte at all. -/
  | noOpcode
  /-- The opcode byte is one of the 242 unmapped ones (R65). -/
  | unmapped (op : Byte)
  /-- The opcode takes an operand byte and none follows (R56). -/
  | missingOperand (op : Byte)
deriving DecidableEq, Repr

/-- Reads one instruction from the front of a byte list and gives the bytes after it: the opcode, then, for format O, the
operand byte (R44, R56). -/
def decode : List Byte → Except DecodeError (Instr × List Byte)
  | [] => .error .noOpcode
  | op :: rest =>
    match opcodeFields op with
    | none => .error (.unmapped op)
    | some (mn, m) =>
      if m.takesOperand then
        match rest with
        | [] => .error (.missingOperand op)
        | v :: rest' => ((instrOfRow mn m v).map (fun i => (i, rest'))).elim (.error (.unmapped op)) .ok
      else ((instrOfRow mn m 0).map (fun i => (i, rest))).elim (.error (.unmapped op)) .ok

/-- How many bytes the machine consumes for an opcode (R67): one for an unmapped opcode under either `UNDEF_OP`. -/
def opcodeLength (op : Byte) : Nat :=
  match opcodeFields op with
  | none => 1
  | some (_, m) => if m.takesOperand then 2 else 1

/-- The opcode byte of an instruction (R57, R61). -/
def Instr.opcode (i : Instr) : Byte := opcodeByte i.form.mnemonic i.form.mode

/-- The bytes of an instruction: `[opcode]` or `[opcode, operand]` (R56, R75). -/
def encode (i : Instr) : List Byte := i.opcode :: (i.form.operand.map (BitVec.ofNat 8)).toList

/-- The instruction a form stands for, if it is well formed. -/
def Form.toInstr (f : Form) : Option Instr :=
  if f.wellFormed then instrOfRow f.mnemonic f.mode (BitVec.ofNat 8 (f.operand.getD 0)) else none

/-- The first and second byte of an instruction whose `nbits` bits are `w`, bit 0 the lowest bit of the first byte; every
bit above them is 0. -/
def tableBytes (nbits w : Nat) : Byte × Byte :=
  (BitVec.ofNat 8 (w % 2 ^ nbits), BitVec.ofNat 8 (w % 2 ^ nbits / 256))

/-- The instruction the decoder reads from a word of the opcode table. -/
def decodeTableWord (nbits w : Nat) : Option Instr :=
  match decode [(tableBytes nbits w).1, (tableBytes nbits w).2] with
  | .ok (i, _) => some i
  | .error _ => none

end Sys2Proof
end

