-- ==== Sys2Proof/Machine/Microcode.lean ====
section
/-! DEFINITION. The named control words (`40_sequencer.md` R83), the micro-ops of each mode and mnemonic (R103 to R109),
the opcode table built from them (`30_encoding.md` R62, R63) and the dispatch of an opcode (R100). -/

namespace Sys2Proof.Machine

/-- `FETCH0`, 0x3002 (R83, R98). -/
def fetch0 : ControlWord := { enablePc := true, latchMar := true, incPc := true }

/-- `FETCH1`, 0x0014 (R83, R99). -/
def fetch1 : ControlWord := { enableMem := true, latchI := true }

/-- `OPFETCH`, 0x3002: the same set as `FETCH0` (R83). -/
def opFetch : ControlWord := { enablePc := true, latchMar := true, incPc := true }

/-- `MEM_TO_MAR`, 0x0006 (R83). -/
def memToMar : ControlWord := { enableMem := true, latchMar := true }

/-- `MEM_TO_A`, 0x0044 (R83). -/
def memToA : ControlWord := { enableMem := true, latchA := true }

/-- `MEM_TO_B`, 0x0404 (R83). -/
def memToB : ControlWord := { enableMem := true, latchB := true }

/-- `ALU_TO_A`, 0x0140 (R83). -/
def aluToA : ControlWord := { enableAlu := true, latchA := true }

/-- `ALUSUB_TO_A`, 0x0340 (R83). -/
def aluSubToA : ControlWord := { enableAlu := true, sub := true, latchA := true }

/-- `A_TO_O`, 0x0880 (R83). -/
def aToO : ControlWord := { enableA := true, latchO := true }

/-- `MEM_TO_PC`, 0x4004 (R83). -/
def memToPc : ControlWord := { enableMem := true, latchPc := true }

/-- `HALTW`, 0x0001 (R83). -/
def haltW : ControlWord := { halt := true }

/-- The operand-fetch micro-ops of each mode (R103 to R108). -/
def modeOps (c : Config) : AddrMode → List ControlWord
  | .implied => []
  | .immediate => [opFetch]
  | .absolute => [opFetch, memToMar]
  | .indirect => [opFetch, memToMar, memToMar]
  | .absoluteBranching =>
    match c.branchShape with
    | .operand => [opFetch]
    | .fetched => [opFetch, memToMar]
  | .indirectBranching =>
    match c.branchShape with
    | .operand => [opFetch, memToMar]
    | .fetched => [opFetch, memToMar, memToMar]

/-- The operation micro-ops of each mnemonic (R109). -/
def opOps : Mnemonic → List ControlWord
  | .lda => [memToA]
  | .add => [memToB, aluToA]
  | .sub => [memToB, aluSubToA]
  | .jmp => [memToPc]
  | .out => [aToO]
  | .nop => []
  | .hlt => [haltW]

/-- The execute microprogram of a mnemonic in a mode (R102). -/
def executeOps (c : Config) (mn : Mnemonic) (m : AddrMode) : List ControlWord := modeOps c m ++ opOps mn

/-- The opcode table: for every mnemonic and every legal mode, the opcode byte and the execute microprogram (R62). -/
def opcodeTable (c : Config) : List (Byte × List ControlWord) :=
  Mnemonic.all.flatMap (fun mn => mn.legalModes.map (fun m => (opcodeByte mn m, executeOps c mn m)))

/-- The check made when the table is built: no two entries share an opcode byte (R63). -/
def opcodeTableOk (c : Config) : Bool := decide ((opcodeTable c).map Prod.fst).Nodup

/-- `DEFAULT(UNDEF_OP)` (R100). -/
def defaultOps (c : Config) : List ControlWord :=
  match c.undefOp with
  | .nop => []
  | .halt => [haltW]

/-- The execute microprogram of an opcode, and whether its decoding is reported to the operator (R100). It depends on the
opcode byte alone (R117). -/
def dispatch (c : Config) (op : Byte) : List ControlWord × Bool :=
  match (opcodeTable c).lookup op with
  | some ops => (ops, false)
  | none => (defaultOps c, true)

end Sys2Proof.Machine
end

