-- ==== Sys2Proof/Machine/Ops.lean ====
section
/-! DEFINITION. The shared operations: memory, raising a fault and leaving it, the increment of PC, the two fetches every
instruction is built from, and the bytes the next fetch finds. -/

namespace Sys2Proof.Machine

/-- What an address that the list does not hold reads as: the reset contents of memory (R34). -/
def Memory.unlisted : Byte := 0x00

/-- The byte at a cell address. -/
def Memory.readAt : Memory → Nat → Byte
  | [], _ => Memory.unlisted
  | (k, v) :: rest, a => if k = a then v else Memory.readAt rest a

/-- Puts a byte at a cell address, keeping the canonical form. -/
def Memory.writeAt : Memory → Nat → Byte → Memory
  | [], a, v => if v = Memory.unlisted then [] else [(a, v)]
  | (k, w) :: rest, a, v =>
    if a < k then (if v = Memory.unlisted then (k, w) :: rest else (a, v) :: (k, w) :: rest)
    else if a = k then (if v = Memory.unlisted then rest else (a, v) :: rest)
    else (k, w) :: Memory.writeAt rest a v

/-- `MemRead(a, 1)` (R12, R41): every byte is a valid address, and a read has no side effect (R39, R46). -/
def Memory.read (m : Memory) (a : Byte) : Byte := Memory.readAt m a.toNat

/-- `MemWrite(a, 1, v)` (R12, R42). -/
def Memory.write (m : Memory) (a v : Byte) : Memory := Memory.writeAt m a.toNat v

/-- The canonical form from a lowest address on: addresses strictly rising and below 256, no byte equal to the unlisted one. -/
def Memory.wfFrom : Nat → Memory → Bool
  | _, [] => true
  | low, (k, v) :: rest =>
    decide (low ≤ k) && decide (k < 256) && decide (v ≠ Memory.unlisted) && Memory.wfFrom (k + 1) rest

/-- The canonical form of a memory (log entry 8). -/
def Memory.wf (m : Memory) : Bool := Memory.wfFrom 0 m

/-- `raise Fault(kind)` (R12, R93): the whole of taking a fault. Nothing of the faulting T-state takes effect, no state is
saved, nothing vectors (R144); the machine stays faulted until reset (R95). -/
def State.raise (s : State) (kind : Fault) : State := { s with fault := some kind }

/-- Reset, the only way out of a faulted or halted machine: there is no trap return (R145, R153, R154). Every field of the
state it starts from is lost; the configuration is not state and stays (R155). -/
def State.afterReset (_s : State) : State := State.reset

/-- `inc(p)` (R89): 0xFF goes to 0x00, where `pcIncFaults` has not caught it. -/
def inc (p : Byte) : Byte := p + 1

/-- The increment of PC is out of range and fatal: PC = 0xFF under `PC_OVERFLOW = fault` (R20, R91). -/
def pcIncFaults (c : Config) (p : Byte) : Bool := decide (p = 0xFF) && decide (c.pcOverflow = .fault)

/-- What fetch T0 and T1 leave when the byte fetched is `op` and its execute microprogram is not empty: MAR the opcode's
address, PC the next one, I the opcode, `dec` its microprogram (R98 to R101). -/
def State.afterFetch (c : Config) (op : Byte) (s : State) : State :=
  { s with mar := s.pc, pc := inc s.pc, i := op, dec := (dispatch c op).1, t := 2 }

/-- The fetch of an opcode, and what comes after it; it faults in T0 as a whole (R91, R98). -/
def withFetch (c : Config) (op : Byte) (s : State) (rest : State → State) : State :=
  if pcIncFaults c s.pc then s.raise .pcOverflow else rest (s.afterFetch c op)

/-- What the control word OPFETCH leaves: MAR the operand's address, PC the next one (R104). -/
def State.afterOperandFetch (s : State) : State := { s with mar := s.pc, pc := inc s.pc }

/-- The operand fetch of a 2-byte instruction, and what comes after it. It faults in T2, when the opcode's fetch has taken
effect (R91, R113, R144). -/
def withOperandFetch (c : Config) (s : State) (rest : State → State) : State :=
  if pcIncFaults c s.pc then s.raise .pcOverflow else rest s.afterOperandFetch

/-- The wrap to fetch T0 after the last execute control word (R101). -/
def State.endInstr (s : State) : State := { s with t := 0 }

/-- The two bytes the next instruction is read from: the byte at PC and the one after it (R44). -/
def fetchBytes (s : State) : List Byte := [s.mem.read s.pc, s.mem.read (inc s.pc)]

/-- The instruction at PC, or the reason there is none. -/
def instrAtPc (s : State) : Except DecodeError Instr := (decode (fetchBytes s)).map Prod.fst

end Sys2Proof.Machine
end

