-- ==== Sys2Proof/Machine/Operands.lean ====
section
/-! DEFINITION. The operand forms (`30_encoding.md` R59): for each addressing mode, the address MAR holds when the operation
runs and the byte the operation reads there (`40_sequencer.md` R102 to R108, R116). -/

namespace Sys2Proof.Machine

/-- The address of the data byte, which MAR holds, and the data byte. -/
structure Datum where
  address : Byte
  value : Byte
deriving DecidableEq, Repr

/-- The operand byte itself, at the address the operand fetch left in MAR (R104). -/
def directDatum (operand : Byte) (s : State) : Datum := { address := s.mar, value := operand }

/-- The byte at the address the operand gives (R105). -/
def absoluteDatum (operand : Byte) (s : State) : Datum := { address := operand, value := s.mem.read operand }

/-- The byte at the address that the byte at the operand gives (R106). -/
def indirectDatum (operand : Byte) (s : State) : Datum :=
  { address := s.mem.read operand, value := s.mem.read (s.mem.read operand) }

/-- The data byte of a mode, or the branch target of a branching mode, in the state the operand fetch leaves (R104 to R108).
`BRANCH_SHAPE` decides how deep a branching mode reads (R107, R108). Implied mode has no operand (R103): no meaning asks. -/
def datumOf (c : Config) (m : AddrMode) (operand : Byte) (s : State) : Datum :=
  match m with
  | .immediate => directDatum operand s
  | .absolute => absoluteDatum operand s
  | .indirect => indirectDatum operand s
  | .absoluteBranching =>
    match c.branchShape with
    | .operand => directDatum operand s
    | .fetched => absoluteDatum operand s
  | .indirectBranching =>
    match c.branchShape with
    | .operand => absoluteDatum operand s
    | .fetched => indirectDatum operand s
  | .implied => directDatum operand s

end Sys2Proof.Machine
end

