-- ==== Sys2Proof/Machine/LoadArithmetic.lean ====
section
/-! DEFINITION. LDA, ADD and SUB (`41_load_arithmetic.md` R118 to R126): the net effect of one whole-instruction step from
an instruction boundary, with the two T-states in which it can fault. No flag exists to be written (R26). -/

namespace Sys2Proof.Machine

/-- An instruction with an operand byte: fetch, operand fetch, then its operation on the data byte of its mode, which MAR
addresses (R102, R116), and the wrap to T0. -/
def operandInstr (c : Config) (mn : Mnemonic) (m : AddrMode) (operand : Byte) (s : State)
    (operation : Byte → State → State) : State :=
  withFetch c (opcodeByte mn m) s (fun s₁ =>
    withOperandFetch c s₁ (fun s₂ =>
      (operation (datumOf c m operand s₂).value { s₂ with mar := (datumOf c m operand s₂).address }).endInstr))

/-- `A <- data` (R60, R118 to R120). -/
def loadA (data : Byte) (s : State) : State := { s with a := data }

/-- `B <- data; A <- (A + B) mod 256` (R60, R121 to R123). -/
def addToA (data : Byte) (s : State) : State := { s with b := data, a := alu s.a data false }

/-- `B <- data; A <- (A - B) mod 256` (R60, R124 to R126). -/
def subFromA (data : Byte) (s : State) : State := { s with b := data, a := alu s.a data true }

/-- LDA in a data mode. -/
def lda (c : Config) (m : AddrMode) (operand : Byte) (s : State) : State := operandInstr c .lda m operand s loadA

/-- ADD in a data mode. -/
def add (c : Config) (m : AddrMode) (operand : Byte) (s : State) : State := operandInstr c .add m operand s addToA

/-- SUB in a data mode. -/
def sub (c : Config) (m : AddrMode) (operand : Byte) (s : State) : State := operandInstr c .sub m operand s subFromA

/-- `LDA $aa` (R119). -/
def execLdaAbsolute (operand : Byte) (s : State) : Host.Outcome State Fault Refusal :=
  .next (lda Config.chip .absolute operand s)

/-- `ADD $aa` (R122). -/
def execAddAbsolute (operand : Byte) (s : State) : Host.Outcome State Fault Refusal :=
  .next (add Config.chip .absolute operand s)

/-- `SUB $aa` (R125). -/
def execSubAbsolute (operand : Byte) (s : State) : Host.Outcome State Fault Refusal :=
  .next (sub Config.chip .absolute operand s)

/-- `LDA ($aa)` (R120). -/
def execLdaIndirect (operand : Byte) (s : State) : Host.Outcome State Fault Refusal :=
  .next (lda Config.chip .indirect operand s)

/-- `ADD ($aa)` (R123). -/
def execAddIndirect (operand : Byte) (s : State) : Host.Outcome State Fault Refusal :=
  .next (add Config.chip .indirect operand s)

/-- `SUB ($aa)` (R126). -/
def execSubIndirect (operand : Byte) (s : State) : Host.Outcome State Fault Refusal :=
  .next (sub Config.chip .indirect operand s)

/-- `LDA #$vv` (R118). -/
def execLdaImmediate (operand : Byte) (s : State) : Host.Outcome State Fault Refusal :=
  .next (lda Config.chip .immediate operand s)

/-- `ADD #$vv` (R121). -/
def execAddImmediate (operand : Byte) (s : State) : Host.Outcome State Fault Refusal :=
  .next (add Config.chip .immediate operand s)

/-- `SUB #$vv` (R124). -/
def execSubImmediate (operand : Byte) (s : State) : Host.Outcome State Fault Refusal :=
  .next (sub Config.chip .immediate operand s)

end Sys2Proof.Machine
end

