-- ==== Sys2Proof/Machine/ControlOutput.lean ====
section
/-! DEFINITION. JMP, OUT, NOP, HLT and the default of the unmapped opcodes (`42_control_output.md` R127 to R134): the net
effect of one whole-instruction step from an instruction boundary, with the T-states in which it can fault. -/

namespace Sys2Proof.Machine

/-- `PC <- target` (R60, R127). -/
def jumpTo (target : Byte) (s : State) : State := { s with pc := target }

/-- JMP in a branching mode (R128, R129); the operand fetch's increment of PC is checked though PC is then overwritten. -/
def jmp (c : Config) (m : AddrMode) (operand : Byte) (s : State) : State := operandInstr c .jmp m operand s jumpTo

/-- `O <- A; emit Output(A)` (R130). -/
def outputA (s : State) : State := { s with o := s.a, out := s.out ++ [s.a] }

/-- OUT (R130). -/
def outInstr (c : Config) (s : State) : State :=
  withFetch c (opcodeByte .out .implied) s (fun s₁ => (outputA s₁).endInstr)

/-- NOP (R131): the fetch and nothing else. -/
def nopInstr (c : Config) (s : State) : State := withFetch c (opcodeByte .nop .implied) s State.endInstr

/-- HLT (R132): PC stays where the fetch left it (`90_conflicts.md` C1). -/
def hltInstr (c : Config) (s : State) : State :=
  withFetch c (opcodeByte .hlt .implied) s (fun s₁ => s₁.setHalted.endInstr)

/-- `report UndefinedOpcode(op)` (R33, R100). -/
def State.report (s : State) (op : Byte) : State := { s with reports := s.reports ++ [op] }

/-- An unmapped opcode: reported at decode, then the default microprogram of `UNDEF_OP` (R133, R134). It is no fault (R141)
and consumes one byte (R67). -/
def unmappedInstr (c : Config) (op : Byte) (s : State) : State :=
  withFetch c op s (fun s₁ =>
    match c.undefOp with
    | .nop => (s₁.report op).endInstr
    | .halt => (s₁.report op).setHalted.endInstr)

/-- `JMP $tt` (R128). -/
def execJmpAbsolute (operand : Byte) (s : State) : Host.Outcome State Fault Refusal :=
  .next (jmp Config.chip .absoluteBranching operand s)

/-- `JMP ($aa)` (R129). -/
def execJmpIndirect (operand : Byte) (s : State) : Host.Outcome State Fault Refusal :=
  .next (jmp Config.chip .indirectBranching operand s)

/-- `OUT` (R130). -/
def execOut (s : State) : Host.Outcome State Fault Refusal := .next (outInstr Config.chip s)

/-- `NOP` (R131). -/
def execNop (s : State) : Host.Outcome State Fault Refusal := .next (nopInstr Config.chip s)

/-- `HLT` (R132). -/
def execHlt (s : State) : Host.Outcome State Fault Refusal := .next (hltInstr Config.chip s)

/-- The step at an opcode byte that is no instruction (R133, R134). -/
def execUnmapped (op : Byte) (s : State) : Host.Outcome State Fault Refusal := .next (unmappedInstr Config.chip op s)

end Sys2Proof.Machine
end

