-- ==== Sys2Proof/Machine/Dispatch.lean ====
section
/-! DEFINITION. The instruction dispatch: one arm per constructor of `Instr`, in the order of the opcode table
(`30_encoding.md` R61). An arm is the net effect of the instruction over one whole-instruction step from an instruction
boundary; it checks neither the halt flag nor the fault state, which `step` does (log entry 16). -/

namespace Sys2Proof.Machine

def exec (i : Instr) (s : State) : Host.Outcome State Fault Refusal :=
  match i with
  | .ldaAbsolute operand => Sys2Proof.Machine.execLdaAbsolute operand s
  | .addAbsolute operand => Sys2Proof.Machine.execAddAbsolute operand s
  | .subAbsolute operand => Sys2Proof.Machine.execSubAbsolute operand s
  | .ldaIndirect operand => Sys2Proof.Machine.execLdaIndirect operand s
  | .addIndirect operand => Sys2Proof.Machine.execAddIndirect operand s
  | .subIndirect operand => Sys2Proof.Machine.execSubIndirect operand s
  | .ldaImmediate operand => Sys2Proof.Machine.execLdaImmediate operand s
  | .addImmediate operand => Sys2Proof.Machine.execAddImmediate operand s
  | .subImmediate operand => Sys2Proof.Machine.execSubImmediate operand s
  | .jmpAbsolute operand => Sys2Proof.Machine.execJmpAbsolute operand s
  | .jmpIndirect operand => Sys2Proof.Machine.execJmpIndirect operand s
  | .out => Sys2Proof.Machine.execOut s
  | .nop => Sys2Proof.Machine.execNop s
  | .hlt => Sys2Proof.Machine.execHlt s

end Sys2Proof.Machine
end

