-- ==== Sys2Proof/Machine/Sequencer.lean ====
section
/-! DEFINITION. The T-state: producers, bus, latches, PC and the sequencer (`40_sequencer.md` R84 to R101), the single-T-state
step (R96, R110) and the whole-instruction step as a bounded loop of them (R111). -/

namespace Sys2Proof.Machine

/-- `drv`: what the components with an enable signal drive, all read at the start of the T-state (R84, R85, R96). -/
def drivers (cw : ControlWord) (s : State) : List Byte :=
  (if cw.enableA then [s.a] else []) ++ (if cw.enableI then [s.i] else []) ++ (if cw.enablePc then [s.pc] else []) ++
    (if cw.enableMem then [s.mem.read s.mar] else []) ++ (if cw.enableAlu then [alu s.a s.b cw.sub] else [])

/-- The bus: the byte of the one producer, `none` without one (R13, R86). It is no state (R35). -/
def busOf (cw : ControlWord) (s : State) : Option Byte := (drivers cw s).head?

/-- The fault a T-state raises, if any: the checks in the order of R93. -/
def tStateFault (c : Config) (cw : ControlWord) (s : State) : Option Fault :=
  if 2 ≤ (drivers cw s).length then some .busContention
  else if cw.anyLatch && (busOf cw s).isNone then some .latchWithoutData
  else if cw.latchPc && cw.incPc then some .illegalControlWord
  else if cw.incPc && !cw.halt && pcIncFaults c s.pc then some .pcOverflow
  else none

/-- The value of a register after the T-state: the bus if its latch signal is there (R15, R87). -/
def latch (signal : Bool) (bus : Option Byte) (old : Byte) : Byte :=
  match signal, bus with
  | true, some v => v
  | _, _ => old

/-- The memory after the T-state, addressed by the MAR of its start (R42, R87). -/
def latchMemory (signal : Bool) (bus : Option Byte) (s : State) : Memory :=
  match signal, bus with
  | true, some v => s.mem.write s.mar v
  | _, _ => s.mem

/-- The output events of the T-state: one for every latch of O, whatever O holds (R22, R87). -/
def emitted (signal : Bool) (bus : Option Byte) : List Byte :=
  match signal, bus with
  | true, some v => [v]
  | _, _ => []

/-- PC after the T-state, by the priority of R89. -/
def nextPc (cw : ControlWord) (bus : Option Byte) (pc : Byte) : Byte :=
  if cw.halt then pc
  else if cw.latchPc then latch true bus pc
  else if cw.incPc then inc pc
  else pc

/-- The clock edge: every component's update at once, from the values at the start of the T-state (R85, R87, R89, R92). -/
def clock (cw : ControlWord) (bus : Option Byte) (s : State) : State :=
  { s with
    a := latch cw.latchA bus s.a
    b := latch cw.latchB bus s.b
    mar := latch cw.latchMar bus s.mar
    i := latch cw.latchI bus s.i
    o := latch cw.latchO bus s.o
    out := s.out ++ emitted cw.latchO bus
    mem := latchMemory cw.latchMem bus s
    pc := nextPc cw bus s.pc
    halted := s.halted || cw.halt }

/-- The sequencer at the end of a T-state, I already latched: decode at the end of fetch T1, with its report (R100), and the
advance of the T-state index (R101). -/
def advance (c : Config) (s : State) : State :=
  match s.t with
  | 0 => { s with t := 1 }
  | 1 =>
    { s with
      dec := (dispatch c s.i).1
      t := if (dispatch c s.i).1.isEmpty then 0 else 2
      reports := if (dispatch c s.i).2 then s.reports ++ [s.i] else s.reports }
  | n + 2 => { s with t := if n + 1 = s.dec.length then 0 else n + 3 }

/-- One T-state of a running machine under a given control word (R96): a fault discards all of it (R93). -/
def tState (c : Config) (cw : ControlWord) (s : State) : State :=
  match tStateFault c cw s with
  | some kind => s.raise kind
  | none => advance c (clock cw (busOf cw s) s)

/-- The control word of the current T-state: fetch, then the decoded microprogram (R96, R98, R99, R101). -/
def currentWord (s : State) : Option ControlWord :=
  match s.t with
  | 0 => some fetch0
  | 1 => some fetch1
  | n + 2 => s.dec[n]?

/-- The T-state step (R96): refused when faulted (R95), the identity when halted (R94). An index with no control word, which
no run reaches, is refused (log entry 6). -/
def stepT (c : Config) (s : State) : Host.Outcome State Fault Refusal :=
  match s.fault with
  | some kind => .refused (.faulted kind)
  | none =>
    if s.halted then .next s
    else
      match currentWord s with
      | some cw => .next (tState c cw s)
      | none => .refused .noControlWord

/-- At most that many T-states, at least one if the bound is not 0, stopping at the wrap to T0 or at a fault (R111). -/
def runTStates (c : Config) : Nat → State → Host.Outcome State Fault Refusal
  | 0, s => .next s
  | n + 1, s =>
    match stepT c s with
    | .next s' => if s'.fault.isNone && decide (s'.t ≠ 0) then runTStates c n s' else .next s'
    | .fault k => .fault k
    | .refused r => .refused r

/-- The whole-instruction step (R111 to R114), bounded by the 7 T-states of the longest instruction (R8). -/
def stepInstr (c : Config) (s : State) : Host.Outcome State Fault Refusal := runTStates c 7 s

/-- The T-states an instruction takes when nothing faults: the two of the fetch and its execute microprogram (R115, R166). It
is timing information: nothing of the machine uses it. -/
def instrTStates (c : Config) (op : Byte) : Nat := 2 + (dispatch c op).1.length

end Sys2Proof.Machine
end

