-- ==== Sys2Proof/Machine/Step.lean ====
section
/-! DEFINITION. The step of the machine: the whole-instruction step (`40_sequencer.md` R111 to R114). At an instruction
boundary it runs the instruction at PC by its meaning; in the middle of an instruction, a position that only single-T-state
steps reach, it runs the instruction's remaining T-states (R114). -/

namespace Sys2Proof.Machine

/-- The step at an instruction boundary of a running machine: the instruction at PC, or the default of its unmapped opcode. -/
def stepAtBoundary (s : State) : Host.Outcome State Fault Refusal :=
  match instrAtPc s with
  | .ok i => exec i s
  | .error _ => execUnmapped (s.mem.read s.pc) s

/-- One whole-instruction step: refused when faulted (R95), the identity when halted (R94, R112). -/
def step (s : State) : Host.Outcome State Fault Refusal :=
  match s.fault with
  | some kind => .refused (.faulted kind)
  | none =>
    if s.halted then .next s
    else if s.t = 0 then stepAtBoundary s
    else stepInstr Config.chip s

/-- The state with the two bytes of a word of the opcode table where the next fetch reads them (R44). It stands for the
host's load of a program (R160; log entry 10). -/
def State.withFetchWord (s : State) (nbits w : Nat) : State :=
  { s with mem := (s.mem.write s.pc (tableBytes nbits w).1).write (inc s.pc) (tableBytes nbits w).2 }

end Sys2Proof.Machine
end

