-- ==== Sys2Proof/Machine/Assembler.lean ====
section
/-! DEFINITION. The assembly language of `30_encoding.md` R69 to R80: source text to program bytes. The assembler is software
outside the block (`00_scope.md` R5) and nothing of the machine calls it; it stands here because the spec gives the language
its programs are written in. Text is a list of characters. -/

namespace Sys2Proof.Machine

/-- The fatal encoding errors, each with the literal offending text (R71, R76, R77). -/
inductive AsmError where
  | unknownMnemonic (text : List Char)
  | illegalOperand (text : List Char)
  | valueAboveByte (text : List Char)
  | operandOnImplied (text : List Char)
  | missingOperand (text : List Char)
  | undefinedLabel (name text : List Char)
  | duplicateLabel (name : List Char)
  | badLabel (text : List Char)
  | badDirective (text : List Char)
deriving DecidableEq, Repr

/-- The literal offending text of an error (R77): for an undefined label the operand that names it, for a `BYTE` directive the
whole directive. -/
def AsmError.text : AsmError → List Char
  | .unknownMnemonic text => text
  | .illegalOperand text => text
  | .valueAboveByte text => text
  | .operandOnImplied text => text
  | .missingOperand text => text
  | .undefinedLabel _ text => text
  | .duplicateLabel name => name
  | .badLabel text => text
  | .badDirective text => text

/-- White space within a line (R69). -/
def isBlank (ch : Char) : Bool := ch == ' ' || ch == '\t' || ch == '\r'

/-- Text without its leading and trailing white space. -/
def trimBlanks (text : List Char) : List Char := ((text.dropWhile isBlank).reverse.dropWhile isBlank).reverse

/-- Text without any white space, which is insignificant (R69; inside an operand log entry 17). -/
def dropBlanks (text : List Char) : List Char := text.filter (fun ch => !isBlank ch)

/-- The lines of a source text (R69). -/
def splitLines : List Char → List (List Char)
  | [] => [[]]
  | ch :: rest =>
    if ch = '\n' then [] :: splitLines rest
    else
      match splitLines rest with
      | [] => [[ch]]
      | line :: lines => (ch :: line) :: lines

/-- A line without its comment and its outer white space (R69, R70). -/
def cleanLine (line : List Char) : List Char := trimBlanks (line.takeWhile (fun ch => ch != ';'))

/-- The spelling of a mnemonic (R60, R72). -/
def mnemonicSpelling : Mnemonic → List Char
  | .lda => ['L', 'D', 'A']
  | .add => ['A', 'D', 'D']
  | .sub => ['S', 'U', 'B']
  | .jmp => ['J', 'M', 'P']
  | .out => ['O', 'U', 'T']
  | .nop => ['N', 'O', 'P']
  | .hlt => ['H', 'L', 'T']

/-- The mnemonic a word spells, in upper case only (R72). -/
def mnemonicOf (word : List Char) : Option Mnemonic := Mnemonic.all.find? (fun mn => mnemonicSpelling mn == word)

/-- A label's name: a letter or `_`, then letters, digits or `_`, and no mnemonic (R71). -/
def isLabelName : List Char → Bool
  | [] => false
  | ch :: rest =>
    (ch.isAlpha || ch == '_') && rest.all (fun x => x.isAlphanum || x == '_') && (mnemonicOf (ch :: rest)).isNone

/-- The value of a hex digit, in either case (R74). -/
def hexDigit (ch : Char) : Option Nat :=
  if '0' ≤ ch ∧ ch ≤ '9' then some (ch.toNat - '0'.toNat)
  else if 'A' ≤ ch ∧ ch ≤ 'F' then some (ch.toNat - 'A'.toNat + 10)
  else if 'a' ≤ ch ∧ ch ≤ 'f' then some (ch.toNat - 'a'.toNat + 10)
  else none

/-- The value of one or more hex digits (R74). -/
def hexValue (digits : List Char) : Option Nat :=
  if digits.isEmpty then none
  else digits.foldl (fun acc ch => acc.bind (fun v => (hexDigit ch).map (fun d => 16 * v + d))) (some 0)

/-- The bytes of pairs of hex digits, in text order (R76). -/
def hexPairs : List Char → Option (List Byte)
  | [] => some []
  | [_] => none
  | hi :: lo :: rest =>
    match hexDigit hi, hexDigit lo, hexPairs rest with
    | some h, some l, some bytes => some (BitVec.ofNat 8 (16 * h + l) :: bytes)
    | _, _, _ => none

/-- The shapes of an operand's text (R73). -/
inductive OperandSyntax where
  | hash
  | plain
  | parens
deriving DecidableEq, Repr

/-- The value in an operand: a hex literal, or a label's name (R73, R74, R79). -/
inductive OperandValue where
  | literal (value : Nat)
  | label (name : List Char)
deriving DecidableEq, Repr

/-- `$XX` or `name` (R74, R79). -/
def parseValue : List Char → Option OperandValue
  | '$' :: digits => (hexValue digits).map .literal
  | text => if isLabelName text then some (.label text) else none

/-- An operand's text, by its shape (R73); labels are whole tokens (R79). -/
def parseOperand : List Char → Option (OperandSyntax × OperandValue)
  | '#' :: rest => (parseValue rest).map (fun v => (.hash, v))
  | '(' :: rest =>
    if rest.getLast? = some ')' then (parseValue rest.dropLast).map (fun v => (.parens, v)) else none
  | text => (parseValue text).map (fun v => (.plain, v))

/-- The mode an operand's shape selects for a mnemonic, if it declares one (R73). -/
def modeFor (mn : Mnemonic) (shape : OperandSyntax) : Option AddrMode :=
  mn.legalModes.find? (fun m =>
    match shape with
    | .hash => m == .immediate
    | .plain => m == .absolute || m == .absoluteBranching
    | .parens => m == .indirect || m == .indirectBranching)

/-- A source line that is not blank. The operand of a code line is its literal text, inner white space included (R77). -/
inductive SourceLine where
  | label (name : List Char)
  | bytes (data : List Byte)
  | code (mn : Mnemonic) (operand : Option (List Char))
deriving DecidableEq, Repr

/-- The data of a `BYTE` directive, from its operand without white space: `#` and an even number of hex digits, at least
two (R76). -/
def byteData : List Char → Option (List Byte)
  | '#' :: digits => (hexPairs digits).filter (fun data => !data.isEmpty)
  | _ => none

/-- A mnemonic or `BYTE`, and the operand's literal text (R69, R72, R76). An ill-formed directive, one without data among
them, is reported whole. -/
def parseCode (line : List Char) : Except AsmError SourceLine :=
  let word := line.takeWhile (fun ch => !isBlank ch)
  let operand := trimBlanks (line.drop word.length)
  if word = ['B', 'Y', 'T', 'E'] then
    match byteData (dropBlanks operand) with
    | some data => .ok (.bytes data)
    | none => .error (.badDirective line)
  else
    match mnemonicOf word with
    | none => .error (.unknownMnemonic word)
    | some mn => .ok (.code mn (if operand.isEmpty then none else some operand))

/-- A line of the source: nothing, a label `name:` (R71), or code. DESIGN CHOICE (log entry 17): white space between a name and
its colon is no part of `name:`, so `name :` is refused as a bad label. -/
def parseLine (line : List Char) : Except AsmError (Option SourceLine) :=
  let text := cleanLine line
  if text.isEmpty then .ok none
  else if text.getLast? = some ':' then
    if isLabelName text.dropLast then .ok (some (.label text.dropLast)) else .error (.badLabel text)
  else (parseCode text).map some

/-- Every line of the source that is not blank. -/
def parseLines : List (List Char) → Except AsmError (List SourceLine)
  | [] => .ok []
  | line :: rest =>
    match parseLine line, parseLines rest with
    | .error e, _ => .error e
    | .ok _, .error e => .error e
    | .ok none, .ok lines => .ok lines
    | .ok (some l), .ok lines => .ok (l :: lines)

/-- The addresses of the labels. -/
abbrev SymbolTable := List (List Char × Nat)

/-- The value of an operand (R79); an undefined label is a fatal error that names it and quotes the operand's text (R77). -/
def resolve (symbols : SymbolTable) (text : List Char) : OperandValue → Except AsmError Nat
  | .literal v => .ok v
  | .label name =>
    match symbols.lookup name with
    | some address => .ok address
    | none => .error (.undefinedLabel name text)

/-- The bytes of a code line (R75), or its fatal error with the operand's literal text (R77). -/
def encodeLine (symbols : SymbolTable) (mn : Mnemonic) (operand : Option (List Char)) : Except AsmError (List Byte) :=
  match operand with
  | none =>
    match (Form.mk mn .implied none).toInstr with
    | some i => .ok (encode i)
    | none => .error (.missingOperand (mnemonicSpelling mn))
  | some text =>
    if mn.legalModes = [.implied] then .error (.operandOnImplied text)
    else
      match parseOperand (dropBlanks text) with
      | none => .error (.illegalOperand text)
      | some (shape, value) =>
        match modeFor mn shape, resolve symbols text value with
        | none, _ => .error (.illegalOperand text)
        | some _, .error e => .error e
        | some m, .ok v =>
          match (Form.mk mn m (some v)).toInstr with
          | some i => .ok (encode i)
          | none => .error (.valueAboveByte text)

/-- Pass 1: the address of every label. A line is encoded speculatively for its length; one that only waits for a label is
taken as 2 bytes long (R78). -/
def collectLabels : List SourceLine → Nat → SymbolTable → Except AsmError SymbolTable
  | [], _, symbols => .ok symbols
  | .label name :: rest, offset, symbols =>
    if (symbols.lookup name).isSome then .error (.duplicateLabel name)
    else collectLabels rest offset (symbols ++ [(name, offset)])
  | .bytes data :: rest, offset, symbols => collectLabels rest (offset + data.length) symbols
  | .code mn operand :: rest, offset, symbols =>
    match encodeLine [] mn operand with
    | .ok bytes => collectLabels rest (offset + bytes.length) symbols
    | .error (.undefinedLabel _ _) => collectLabels rest (offset + 2) symbols
    | .error e => .error e

/-- Pass 2: the bytes of every line in order, its labels resolved (R79, R80). -/
def emitLines (symbols : SymbolTable) : List SourceLine → Except AsmError (List Byte)
  | [] => .ok []
  | .label _ :: rest => emitLines symbols rest
  | .bytes data :: rest => (emitLines symbols rest).map (fun bytes => data ++ bytes)
  | .code mn operand :: rest =>
    match encodeLine symbols mn operand with
    | .ok bytes => (emitLines symbols rest).map (fun more => bytes ++ more)
    | .error e => .error e

/-- The program a source text stands for, to be loaded at address 0 (R80). -/
def assemble (source : List Char) : Except AsmError (List Byte) :=
  match parseLines (splitLines source) with
  | .error e => .error e
  | .ok lines =>
    match collectLabels lines 0 [] with
    | .error e => .error e
    | .ok symbols => emitLines symbols lines

end Sys2Proof.Machine
end

