-- ==== Sys2Proof/Machine/HostPort.lean ====
section
/-! DEFINITION. The host's interactions with the block (`70_reset_and_hazards.md` R158): reset, program load, the two steps,
the bulk memory read and the output sink. The host has no other move. -/

namespace Sys2Proof.Machine

/-- Pulse 1 of a byte's load: the host drives the address, control word {LATCH_MAR} (R160). -/
def loadAddressPulse (address : Byte) (s : State) : State := clock { latchMar := true } (some address) s

/-- Pulse 2 of a byte's load: the host drives the value, control word {LATCH_MEM} (R160). -/
def loadDataPulse (value : Byte) (s : State) : State := clock { latchMem := true } (some value) s

/-- The pulse pairs of a load from the given address on. It stops at the first pulse that is out of range, keeping the bytes
loaded before it (R140, R161). -/
def loadFrom : Nat → List Int → State → State
  | _, [], s => s
  | address, value :: rest, s =>
    if 256 ≤ address then s.raise .loadAddressOutOfRange
    else if 0 ≤ value ∧ value < 256 then
      loadFrom (address + 1) rest
        (loadDataPulse (BitVec.ofInt 8 value) (loadAddressPulse (BitVec.ofNat 8 address) s))
    else (loadAddressPulse (BitVec.ofNat 8 address) s).raise .loadValueOutOfRange

/-- The load of a program at address 0 (R160, R161). The values are integers: the host may offer one that is no byte. -/
def loadProgram (program : List Int) (s : State) : State := loadFrom 0 program s

/-- The bulk memory read: row r, column c is `Mem[16 r + c]` (R54). -/
def bulkRead (s : State) : List (List Byte) :=
  (List.range 16).map (fun r => (List.range 16).map (fun c => s.mem.read (BitVec.ofNat 8 (16 * r + c))))

/-- What the host can ask of the block (R158). -/
inductive HostMove where
  | reset
  | load (program : List Int)
  | stepT
  | stepInstr
  | bulkRead
deriving DecidableEq, Repr

/-- The machine and whether it is right after a reset, with no load and no step since: the model's own bit, which decides
whether a load is admitted (R159; log entry 11). -/
structure Session where
  machine : State
  fresh : Bool
deriving DecidableEq, Repr

/-- What the host gets back (R158). -/
inductive Reply where
  | nothing
  | loaded
  | loadFault (kind : Fault)
  | newState (s : State)
  | grid (rows : List (List Byte))
deriving DecidableEq, Repr

/-- The session after a move, the reply, and the output events the sink is called with, in order (R22, R149). -/
structure Answer where
  session : Session
  reply : Reply
  events : List Byte
deriving DecidableEq, Repr

/-- The answer to a step: the new state and the events it appended to `out`. -/
def stepAnswer (before : State) : Host.Outcome State Fault Refusal → Host.Outcome Answer Fault Refusal
  | .next after =>
    .next
      { session := { machine := after, fresh := false }
        reply := .newState after
        events := after.out.drop before.out.length }
  | .fault k => .fault k
  | .refused r => .refused r

/-- The answer to a load. -/
def loadAnswer (after : State) : Answer :=
  { session := { machine := after, fresh := false }
    reply := match after.fault with
      | none => .loaded
      | some k => .loadFault k
    events := [] }

/-- One interaction of the host (R158). Reset is admitted always (R154), a load right after a reset only (R159), the steps
always, with a refusal when faulted (R95), the bulk read always and with no effect (R54). -/
def hostMove (move : HostMove) (session : Session) : Host.Outcome Answer Fault Refusal :=
  match move with
  | .reset =>
    .next { session := { machine := session.machine.afterReset, fresh := true }, reply := .nothing, events := [] }
  | .load program =>
    if session.fresh then .next (loadAnswer (loadProgram program session.machine))
    else .refused .loadNotAfterReset
  | .stepT => stepAnswer session.machine (stepT Config.chip session.machine)
  | .stepInstr => stepAnswer session.machine (step session.machine)
  | .bulkRead => .next { session := session, reply := .grid (bulkRead session.machine), events := [] }

end Sys2Proof.Machine
end

