-- ==== Sys2Proof/Safety.lean ====
section
/-! DEFINITION. The terms claims are made in: the machine's modes, the states a run can be in, and how a run ends
(`70_reset_and_hazards.md` R162). -/

namespace Sys2Proof.Machine

/-- The machine moves when stepped: it is neither halted nor faulted (R94, R95). -/
def State.running (s : State) : Bool := !s.halted && s.fault.isNone

/-- Running, at an instruction boundary (`00_scope.md` glossary): the start of every per-instruction rule. -/
def State.atBoundary (s : State) : Bool := s.running && decide (s.t = 0)

/-- The only final state of a run: halted without a fault (R162). -/
def State.final (s : State) : Bool := s.halted && s.fault.isNone

/-- What holds of every state of a run: the bounds of R29, R30 and R37, `dec` the dispatch of I and the index inside it
while an instruction executes (R30), the halt only at a boundary (R112), never halted and faulted at once (R143), no fault
kind that the table's microprograms cannot raise (R93), and the canonical form of memory (log entry 8). -/
structure State.Inv (c : Config) (s : State) : Prop where
  memory : s.mem.wf = true
  index : s.t ≤ 6
  short : s.dec.length ≤ 5
  decoded : 2 ≤ s.t → s.dec = (dispatch c s.i).1 ∧ s.t ≤ s.dec.length + 1
  haltAtBoundary : s.halted = true → s.t = 0
  haltedOrFaulted : s.halted = true → s.fault = none
  kinds : ∀ k, s.fault = some k → k = .pcOverflow ∨ k = .loadAddressOutOfRange ∨ k = .loadValueOutOfRange

/-- A run from a state reaches the halted final state (R162). -/
def EndsHalted (s : State) : Prop := ∃ n s', Host.Core.run Sys2Proof.core n s = .next s' ∧ s'.final = true

/-- A run from a state reaches a faulted state, which is not final (R162). -/
def EndsFaulted (s : State) : Prop := ∃ n s', Host.Core.run Sys2Proof.core n s = .next s' ∧ s'.fault.isSome = true

/-- A run from a state never halts and never faults: a hang (R162). -/
def Hangs (s : State) : Prop := ∀ n, ∃ s', Host.Core.run Sys2Proof.core n s = .next s' ∧ s'.running = true

/-- No step of the run from a state is refused and none of its states is faulted: a safe run. -/
def Safe (s : State) : Prop := ∀ n, ∃ s', Host.Core.run Sys2Proof.core n s = .next s' ∧ s'.fault = none

end Sys2Proof.Machine
end

