-- ==== Sys2Proof/Certificates/Slice0/Obligations.lean ====
section
/-! DEFINITION. The statements for the provers. A statement over `c : Config` holds for every value of the three parameters;
one over `exec` and `step` speaks of `Config.chip`, whose values nothing fixes (log entry 1). -/

open Sys2Proof Sys2Proof.Machine

/-! ## Encoding -/

/-- R61: each of the 14 opcodes decodes to its row's instruction, with the operand byte that follows it in format O, and
every other byte is unmapped. -/
def Obligations.OpcodeTableDecodes : Prop :=
  (∀ v rest,
    decode (0x00 :: v :: rest) = .ok (.ldaAbsolute v, rest) ∧
    decode (0x01 :: v :: rest) = .ok (.addAbsolute v, rest) ∧
    decode (0x02 :: v :: rest) = .ok (.subAbsolute v, rest) ∧
    decode (0x10 :: v :: rest) = .ok (.ldaIndirect v, rest) ∧
    decode (0x11 :: v :: rest) = .ok (.addIndirect v, rest) ∧
    decode (0x12 :: v :: rest) = .ok (.subIndirect v, rest) ∧
    decode (0x20 :: v :: rest) = .ok (.ldaImmediate v, rest) ∧
    decode (0x21 :: v :: rest) = .ok (.addImmediate v, rest) ∧
    decode (0x22 :: v :: rest) = .ok (.subImmediate v, rest) ∧
    decode (0x33 :: v :: rest) = .ok (.jmpAbsolute v, rest) ∧
    decode (0x43 :: v :: rest) = .ok (.jmpIndirect v, rest)) ∧
  (∀ rest,
    decode (0xFD :: rest) = .ok (.out, rest) ∧
    decode (0xFE :: rest) = .ok (.nop, rest) ∧
    decode (0xFF :: rest) = .ok (.hlt, rest)) ∧
  (∀ op rest,
    op ∉ [0x00, 0x01, 0x02, 0x10, 0x11, 0x12, 0x20, 0x21, 0x22, 0x33, 0x43, 0xFD, 0xFE, 0xFF] →
      decode (op :: rest) = .error (.unmapped op))

/-- Decode and encode agree in both directions, for every instruction, operand and following bytes: no bit of an encoding is
dropped and no other byte list reads as the instruction (`30_encoding.md` sections 1 to 4). -/
def Obligations.DecodeIsInverseOfEncode : Prop :=
  ∀ (bytes : List Byte) (i : Instr) (rest : List Byte),
    decode bytes = .ok (i, rest) ↔ bytes = encode i ++ rest

/-- The opcode table built from the modes and the mnemonics has 14 entries and no collision, whatever the parameters
(`30_encoding.md` section 4). -/
def Obligations.OpcodeTableHasNoCollision : Prop :=
  ∀ c : Config, (opcodeTable c).length = 14 ∧ opcodeTableOk c = true ∧ ((opcodeTable c).map Prod.fst).Nodup

/-! ## Microcode -/

/-- R83: the eleven named control words are the sets of the listing, and every microprogram is built from them. -/
def Obligations.NamedControlWordsBuildEveryMicroprogram : Prop :=
  fetch0.bits = 0x3002 ∧ fetch1.bits = 0x0014 ∧ opFetch.bits = 0x3002 ∧ memToMar.bits = 0x0006 ∧ memToA.bits = 0x0044 ∧
  memToB.bits = 0x0404 ∧ aluToA.bits = 0x0140 ∧ aluSubToA.bits = 0x0340 ∧ aToO.bits = 0x0880 ∧ memToPc.bits = 0x4004 ∧
  haltW.bits = 0x0001 ∧
  (∀ s : State, (s.t = 0 → currentWord s = some fetch0) ∧ (s.t = 1 → currentWord s = some fetch1)) ∧
  (∀ (c : Config) (op : Byte) (cw : ControlWord), cw ∈ (dispatch c op).1 →
    cw ∈ [opFetch, memToMar, memToA, memToB, aluToA, aluSubToA, aToO, memToPc, haltW])

/-- The microcode listing for every value of the parameters, the unmapped opcodes and the longest list included
(`40_sequencer.md` section 5). -/
def Obligations.MicrocodeListing : Prop :=
  ∀ c : Config,
    dispatch c 0x00 = ([opFetch, memToMar, memToA], false) ∧
    dispatch c 0x01 = ([opFetch, memToMar, memToB, aluToA], false) ∧
    dispatch c 0x02 = ([opFetch, memToMar, memToB, aluSubToA], false) ∧
    dispatch c 0x10 = ([opFetch, memToMar, memToMar, memToA], false) ∧
    dispatch c 0x11 = ([opFetch, memToMar, memToMar, memToB, aluToA], false) ∧
    dispatch c 0x12 = ([opFetch, memToMar, memToMar, memToB, aluSubToA], false) ∧
    dispatch c 0x20 = ([opFetch, memToA], false) ∧
    dispatch c 0x21 = ([opFetch, memToB, aluToA], false) ∧
    dispatch c 0x22 = ([opFetch, memToB, aluSubToA], false) ∧
    dispatch c 0x33 =
      (match c.branchShape with
        | .operand => [opFetch, memToPc]
        | .fetched => [opFetch, memToMar, memToPc], false) ∧
    dispatch c 0x43 =
      (match c.branchShape with
        | .operand => [opFetch, memToMar, memToPc]
        | .fetched => [opFetch, memToMar, memToMar, memToPc], false) ∧
    dispatch c 0xFD = ([aToO], false) ∧
    dispatch c 0xFE = ([], false) ∧
    dispatch c 0xFF = ([haltW], false) ∧
    (∀ op, op ∉ [0x00, 0x01, 0x02, 0x10, 0x11, 0x12, 0x20, 0x21, 0x22, 0x33, 0x43, 0xFD, 0xFE, 0xFF] →
      dispatch c op =
        (match c.undefOp with
          | .nop => []
          | .halt => [haltW], true)) ∧
    (∀ op, (dispatch c op).1.length ≤ 5)

/-- The whole-instruction step takes exactly the T-states the timing table counts: that many T-states reach its end, and
after any smaller number, but 0, the instruction is still under way (`70_reset_and_hazards.md` section 6). -/
def Obligations.InstructionTakesItsTStates : Prop :=
  ∀ (c : Config) (s : State), s.atBoundary = true → s.pc ≠ 0xFF → s.pc ≠ 0xFE →
    runTStates c (instrTStates c (s.mem.read s.pc)) s = stepInstr c s ∧
    (∀ k, 0 < k → k < instrTStates c (s.mem.read s.pc) →
      ∃ s', runTStates c k s = .next s' ∧ s'.t = k ∧ s'.fault = none)

/-! ## One T-state -/

/-- R25: the arithmetic unit adds and subtracts modulo 256, and alone on the bus drives its result on A and B as they are at
the start of the T-state. -/
def Obligations.ArithmeticUnitWraps : Prop :=
  (∀ a b : Byte,
    (alu a b false).toNat = (a.toNat + b.toNat) % 256 ∧ ((alu a b true).toNat : Int) = ((a.toNat : Int) - b.toNat) % 256) ∧
  (∀ (cw : ControlWord) (s : State), cw.enableAlu = true →
    (cw.enableA || cw.enableI || cw.enablePc || cw.enableMem) = false →
      busOf cw s = some (alu s.a s.b cw.sub))

/-- R84: a component drives its byte exactly when its enable signal is in the control word, B, MAR and O never do; the byte of
the one producer is on the bus, and without an enable signal the bus carries no data. -/
def Obligations.BusCarriesTheOneProducer : Prop :=
  ∀ (cw : ControlWord) (s : State),
    drivers cw s =
      (Signal.enables.filter cw.has).map (fun signal =>
        match signal with
        | .enableA => s.a
        | .enableI => s.i
        | .enablePc => s.pc
        | .enableMem => s.mem.read s.mar
        | _ => alu s.a s.b cw.sub) ∧
    (Signal.enables.filter cw.has = [.enableA] → busOf cw s = some s.a) ∧
    (Signal.enables.filter cw.has = [.enableI] → busOf cw s = some s.i) ∧
    (Signal.enables.filter cw.has = [.enablePc] → busOf cw s = some s.pc) ∧
    (Signal.enables.filter cw.has = [.enableMem] → busOf cw s = some (s.mem.read s.mar)) ∧
    (Signal.enables.filter cw.has = [.enableAlu] → busOf cw s = some (alu s.a s.b cw.sub)) ∧
    (Signal.enables.filter cw.has = [] → busOf cw s = none)

/-- R88, R90, R93: the fatal conditions of a T-state, in their order; the one that applies is recorded and everything else
keeps its start-of-T-state value; where none applies nothing is recorded. No control word of the table meets one of the first
three conditions, so a microprogram can only raise the fourth. -/
def Obligations.FaultChecksInOrder : Prop :=
  (∀ (c : Config) (op : Byte) (cw : ControlWord), cw ∈ fetch0 :: fetch1 :: (dispatch c op).1 →
    (Signal.enables.filter cw.has).length ≤ 1 ∧
    (Signal.latches.any cw.has = true → (Signal.enables.filter cw.has).length = 1) ∧
    ¬(cw.has .latchPc = true ∧ cw.has .incPc = true)) ∧
  ∀ (c : Config) (s : State) (cw : ControlWord), s.running = true → currentWord s = some cw →
    if 2 ≤ (Signal.enables.filter cw.has).length then
      stepT c s = .next { s with fault := some .busContention }
    else if (Signal.latches.any cw.has = true ∧ Signal.enables.filter cw.has = []) then
      stepT c s = .next { s with fault := some .latchWithoutData }
    else if cw.has .latchPc = true ∧ cw.has .incPc = true then
      stepT c s = .next { s with fault := some .illegalControlWord }
    else if cw.has .incPc = true ∧ cw.has .halt = false ∧ s.pc = 0xFF ∧ c.pcOverflow = .fault then
      stepT c s = .next { s with fault := some .pcOverflow }
    else ∃ s', stepT c s = .next s' ∧ s'.fault = none

/-- R87: the registers and the memory byte at the old MAR whose latch signal is in the control word take the bus value, all
others keep theirs, and every latch of O is one output event. -/
def Obligations.LatchesTakeTheBus : Prop :=
  ∀ (c : Config) (s s' : State) (cw : ControlWord) (v : Byte),
    s.running = true → s.mem.wf = true → currentWord s = some cw → busOf cw s = some v →
    stepT c s = .next s' → s'.fault = none →
      s'.a = (if cw.has .latchA then v else s.a) ∧
      s'.b = (if cw.has .latchB then v else s.b) ∧
      s'.mar = (if cw.has .latchMar then v else s.mar) ∧
      s'.i = (if cw.has .latchI then v else s.i) ∧
      s'.o = (if cw.has .latchO then v else s.o) ∧
      s'.out = (if cw.has .latchO then s.out ++ [v] else s.out) ∧
      (∀ a, s'.mem.read a = if cw.has .latchMem ∧ a = s.mar then v else s.mem.read a)

/-- A T-state in which nothing drives the bus and nothing faults changes no register but PC, no memory and no event list
(`40_sequencer.md` section 2). -/
def Obligations.IdleBusLeavesRegisters : Prop :=
  ∀ (c : Config) (s s' : State) (cw : ControlWord),
    s.running = true → currentWord s = some cw → busOf cw s = none → stepT c s = .next s' → s'.fault = none →
      s'.a = s.a ∧ s'.b = s.b ∧ s'.mar = s.mar ∧ s'.i = s.i ∧ s'.o = s.o ∧ s'.mem = s.mem ∧ s'.out = s.out

/-- R89: PC after a T-state without a fault, in the rule's priority order. -/
def Obligations.PcUpdateByPriority : Prop :=
  ∀ (c : Config) (s s' : State) (cw : ControlWord),
    s.running = true → currentWord s = some cw → stepT c s = .next s' → s'.fault = none →
      if cw.has .halt then s'.pc = s.pc
      else if cw.has .latchPc then busOf cw s = some s'.pc
      else if cw.has .incPc then
        (s.pc ≠ 0xFF ∧ s'.pc.toNat = s.pc.toNat + 1) ∨ (s.pc = 0xFF ∧ c.pcOverflow = .wrap ∧ s'.pc = 0x00)
      else s'.pc = s.pc

/-- A T-state without a fault halts the machine exactly if HALT is in its control word, whatever else is; from then on every
T-state, under every control word, changes nothing (`40_sequencer.md` section 2). -/
def Obligations.HaltIsSticky : Prop :=
  ∀ (c : Config) (s s' : State) (cw : ControlWord),
    s.running = true → currentWord s = some cw → stepT c s = .next s' → s'.fault = none →
      s'.halted = cw.has .halt ∧
      (cw.has .halt = true → s'.pc = s.pc ∧ ∀ c' : Config, stepT c' s' = .next s')

/-- R98: fetch T0 puts PC into MAR and increments PC, or faults with nothing done. -/
def Obligations.FetchT0 : Prop :=
  ∀ (c : Config) (s : State), s.atBoundary = true →
    stepT c s =
      .next (if pcIncFaults c s.pc then { s with fault := some .pcOverflow }
        else { s with mar := s.pc, pc := inc s.pc, t := 1 })

/-- R99, R100: fetch T1 puts the opcode byte into I and decodes it: a mapped opcode swaps in its microprogram, an unmapped
one the default of `UNDEF_OP`, with a report. -/
def Obligations.FetchT1Decodes : Prop :=
  ∀ (c : Config) (s : State), s.running = true → s.t = 1 →
    match opcodeFields (s.mem.read s.mar) with
    | some (mn, m) =>
      stepT c s =
        .next { s with
          i := s.mem.read s.mar
          dec := modeOps c m ++ opOps mn
          t := if modeOps c m ++ opOps mn = [] then 0 else 2 }
    | none =>
      stepT c s =
        .next { s with
          i := s.mem.read s.mar
          dec := (match c.undefOp with
            | .nop => []
            | .halt => [haltW])
          t := (match c.undefOp with
            | .nop => 0
            | .halt => 2)
          reports := s.reports ++ [s.mem.read s.mar] }

/-- R101: the T-state index after every T-state without a fault, and the microprogram it indexes. -/
def Obligations.SequencerAdvances : Prop :=
  ∀ (c : Config) (s s' : State), s.running = true → stepT c s = .next s' → s'.fault = none →
    (s.t = 0 → s'.t = 1 ∧ s'.dec = s.dec) ∧
    (s.t = 1 → s'.dec = (dispatch c s'.i).1 ∧ s'.t = if s'.dec.length = 0 then 0 else 2) ∧
    (2 ≤ s.t → s'.dec = s.dec ∧ s'.t = if s.t - 1 = s.dec.length then 0 else s.t + 1)

/-! ## Halted and faulted machines -/

/-- R94: while the machine is halted and not faulted, every T-state step and every instruction step changes nothing, however
often it is called. -/
def Obligations.HaltedMachineNeverMoves : Prop :=
  ∀ (c : Config) (s : State), s.final = true →
    stepT c s = .next s ∧ stepInstr c s = .next s ∧ step s = .next s ∧
    ∀ n, Host.Core.run Sys2Proof.core n s = .next s

/-- R95: while a fault is recorded, every step is refused with its kind. -/
def Obligations.FaultedMachineRefusesEveryStep : Prop :=
  ∀ (c : Config) (s : State) (k : Fault), s.fault = some k →
    stepT c s = .refused (.faulted k) ∧ stepInstr c s = .refused (.faulted k) ∧ step s = .refused (.faulted k)

/-! ## The step -/

/-- A step at an instruction boundary, when the bytes at PC and the address after it decode to an instruction, is `exec` of
it: nothing is added around it (`40_sequencer.md` section 4). -/
def Obligations.StepRunsTheDecodedInstruction : Prop :=
  ∀ (s : State) (i : Instr) (rest : List Byte), s.atBoundary = true →
    decode [s.mem.read s.pc, s.mem.read (s.pc + 1)] = .ok (i, rest) → step s = exec i s

/-- The net effects of the instructions and the microcode are the same machine: in every state, reachable or not, the step
is the bounded loop of T-states (`40_sequencer.md` section 4, `41_load_arithmetic.md`, `42_control_output.md`). -/
def Obligations.StepIsTheMicrocodeLoop : Prop :=
  ∀ s : State, step s = stepInstr Config.chip s

/-- From every running state of a run the whole-instruction step answers a next state, at an instruction boundary or faulted:
the bound of 7 T-states cuts no instruction short (`40_sequencer.md` section 4). -/
def Obligations.InstructionStepReachesTheBoundary : Prop :=
  ∀ (c : Config) (s : State), s.Inv c → s.running = true →
    ∃ s', stepInstr c s = .next s' ∧ (s'.t = 0 ∨ s'.fault ≠ none)

/-- A whole-instruction step from the middle of an instruction runs only what is left of it: no other opcode is fetched or
reported (`40_sequencer.md` section 4). -/
def Obligations.MidInstructionStepFinishesIt : Prop :=
  ∀ (c : Config) (s s' : State), s.Inv c → s.running = true → 2 ≤ s.t → stepInstr c s = .next s' →
    s'.i = s.i ∧ s'.dec = s.dec ∧ s'.reports = s.reports ∧ (s'.t = 0 ∨ s'.fault = some .pcOverflow)

/-- R139: a whole-instruction step from a boundary faults exactly under `PC_OVERFLOW = fault`, at 0xFF for every opcode and
at 0xFE for every 2-byte instruction, and the kind is PcOverflow. -/
def Obligations.PcOverflowIsTheOnlyFault : Prop :=
  ∀ (c : Config) (s s' : State), s.atBoundary = true → stepInstr c s = .next s' →
    (s'.fault ≠ none ↔
      c.pcOverflow = .fault ∧ (s.pc = 0xFF ∨ (s.pc = 0xFE ∧ opcodeLength (s.mem.read s.pc) = 2))) ∧
    (s'.fault = none ∨ s'.fault = some .pcOverflow)

/-! ## What each instruction does, and where it completes -/

/-- LDA in its three modes completes wherever neither of its two increments of PC is out of range; the record says what it
writes and, by naming nothing else, what it leaves (`41_load_arithmetic.md`). -/
def Obligations.LdaCompletes : Prop :=
  ∀ (v : Byte) (s : State), pcIncFaults Config.chip s.pc = false → pcIncFaults Config.chip (inc s.pc) = false →
    exec (.ldaImmediate v) s =
      .next { s with
        i := 0x20, mar := inc s.pc, a := v, pc := inc (inc s.pc), dec := [opFetch, memToA], t := 0 } ∧
    exec (.ldaAbsolute v) s =
      .next { s with
        i := 0x00, mar := v, a := s.mem.read v, pc := inc (inc s.pc), dec := [opFetch, memToMar, memToA], t := 0 } ∧
    exec (.ldaIndirect v) s =
      .next { s with
        i := 0x10, mar := s.mem.read v, a := s.mem.read (s.mem.read v), pc := inc (inc s.pc)
        dec := [opFetch, memToMar, memToMar, memToA], t := 0 }

/-- ADD in its three modes, as for LDA: B takes the data, A the sum modulo 256. -/
def Obligations.AddCompletes : Prop :=
  ∀ (v : Byte) (s : State), pcIncFaults Config.chip s.pc = false → pcIncFaults Config.chip (inc s.pc) = false →
    exec (.addImmediate v) s =
      .next { s with
        i := 0x21, mar := inc s.pc, b := v, a := s.a + v, pc := inc (inc s.pc)
        dec := [opFetch, memToB, aluToA], t := 0 } ∧
    exec (.addAbsolute v) s =
      .next { s with
        i := 0x01, mar := v, b := s.mem.read v, a := s.a + s.mem.read v, pc := inc (inc s.pc)
        dec := [opFetch, memToMar, memToB, aluToA], t := 0 } ∧
    exec (.addIndirect v) s =
      .next { s with
        i := 0x11, mar := s.mem.read v, b := s.mem.read (s.mem.read v), a := s.a + s.mem.read (s.mem.read v)
        pc := inc (inc s.pc), dec := [opFetch, memToMar, memToMar, memToB, aluToA], t := 0 }

/-- SUB in its three modes, as for LDA: B takes the data, A the difference modulo 256. -/
def Obligations.SubCompletes : Prop :=
  ∀ (v : Byte) (s : State), pcIncFaults Config.chip s.pc = false → pcIncFaults Config.chip (inc s.pc) = false →
    exec (.subImmediate v) s =
      .next { s with
        i := 0x22, mar := inc s.pc, b := v, a := s.a - v, pc := inc (inc s.pc)
        dec := [opFetch, memToB, aluSubToA], t := 0 } ∧
    exec (.subAbsolute v) s =
      .next { s with
        i := 0x02, mar := v, b := s.mem.read v, a := s.a - s.mem.read v, pc := inc (inc s.pc)
        dec := [opFetch, memToMar, memToB, aluSubToA], t := 0 } ∧
    exec (.subIndirect v) s =
      .next { s with
        i := 0x12, mar := s.mem.read v, b := s.mem.read (s.mem.read v), a := s.a - s.mem.read (s.mem.read v)
        pc := inc (inc s.pc), dec := [opFetch, memToMar, memToMar, memToB, aluSubToA], t := 0 }

/-- JMP in its two modes, for both values of `BRANCH_SHAPE`: PC takes the target, MAR the address it was read at
(`42_control_output.md`). -/
def Obligations.JmpCompletes : Prop :=
  ∀ (v : Byte) (s : State), pcIncFaults Config.chip s.pc = false → pcIncFaults Config.chip (inc s.pc) = false →
    exec (.jmpAbsolute v) s =
      .next (match Config.chip.branchShape with
        | .operand => { s with i := 0x33, mar := inc s.pc, pc := v, dec := [opFetch, memToPc], t := 0 }
        | .fetched =>
          { s with i := 0x33, mar := v, pc := s.mem.read v, dec := [opFetch, memToMar, memToPc], t := 0 }) ∧
    exec (.jmpIndirect v) s =
      .next (match Config.chip.branchShape with
        | .operand =>
          { s with i := 0x43, mar := v, pc := s.mem.read v, dec := [opFetch, memToMar, memToPc], t := 0 }
        | .fetched =>
          { s with
            i := 0x43, mar := s.mem.read v, pc := s.mem.read (s.mem.read v)
            dec := [opFetch, memToMar, memToMar, memToPc], t := 0 })

/-- OUT completes wherever its one increment of PC is in range: O takes A and one output event is appended
(`42_control_output.md`). -/
def Obligations.OutCompletes : Prop :=
  ∀ s : State, pcIncFaults Config.chip s.pc = false →
    exec .out s =
      .next { s with
        i := 0xFD, mar := s.pc, pc := inc s.pc, o := s.a, out := s.out ++ [s.a], dec := [aToO], t := 0 }

/-- NOP completes wherever its one increment of PC is in range, and does nothing but its fetch (`42_control_output.md`). -/
def Obligations.NopCompletes : Prop :=
  ∀ s : State, pcIncFaults Config.chip s.pc = false →
    exec .nop s = .next { s with i := 0xFE, mar := s.pc, pc := inc s.pc, dec := [], t := 0 }

/-- HLT completes wherever its one increment of PC is in range: PC is one past it, and, run by an unfaulted machine, the state
it leaves is the last one (`42_control_output.md`). -/
def Obligations.HltCompletes : Prop :=
  ∀ s : State, pcIncFaults Config.chip s.pc = false →
    ∃ t, exec .hlt s = .next t ∧
      t = { s with i := 0xFF, mar := s.pc, pc := inc s.pc, halted := true, dec := [haltW], t := 0 } ∧
      (s.fault = none → ∀ n, Host.Core.run Sys2Proof.core n t = .next t)

/-- At 0xFF every instruction faults in fetch T0 with nothing done, unless PC wraps (`40_sequencer.md` section 2). -/
def Obligations.ExecAtTopOfMemoryFaultsOrWraps : Prop :=
  ∀ (i : Instr) (s : State), s.pc = 0xFF →
    exec i s = .next { s with fault := some .pcOverflow } ∨ Config.chip.pcOverflow = .wrap

/-- At 0xFE a 2-byte instruction faults in its operand fetch, its opcode's fetch done (MAR, PC, I, `dec` and the index show
it), unless PC wraps; a 1-byte instruction does not fault there (`60_exceptions.md` section 4). -/
def Obligations.OperandFetchFaultKeepsTheFetch : Prop :=
  ∀ (i : Instr) (s : State), s.pc = 0xFE →
    ((encode i).length = 2 →
      exec i s =
          .next { s with
            mar := 0xFE, pc := 0xFF, i := i.opcode, dec := (dispatch Config.chip i.opcode).1, t := 2
            fault := some .pcOverflow } ∨
        Config.chip.pcOverflow = .wrap) ∧
    ((encode i).length = 1 → ∃ t, exec i s = .next t ∧ t.fault = s.fault ∧ t.pc = 0xFF)

/-! ## The microcode of each instruction, rule by rule, for every configuration -/

/-- R118, R119, R120: LDA run by the microcode from a boundary: its microprogram, its T-states, its effect, and its two
faults. -/
def Obligations.LdaByMicrocode : Prop :=
  ∀ (c : Config) (s : State), s.atBoundary = true →
    (s.mem.read s.pc = 0x20 → dispatch c 0x20 = ([opFetch, memToA], false) ∧ instrTStates c 0x20 = 4 ∧
      stepInstr c s =
        .next (if pcIncFaults c s.pc then { s with fault := some .pcOverflow }
          else if pcIncFaults c (inc s.pc) then
            { s with
              mar := s.pc, pc := inc s.pc, i := 0x20, dec := [opFetch, memToA], t := 2, fault := some .pcOverflow }
          else
            { s with
              i := 0x20, mar := inc s.pc, a := s.mem.read (inc s.pc), pc := inc (inc s.pc), dec := [opFetch, memToA]
              t := 0 })) ∧
    (s.mem.read s.pc = 0x00 → dispatch c 0x00 = ([opFetch, memToMar, memToA], false) ∧ instrTStates c 0x00 = 5 ∧
      stepInstr c s =
        .next (if pcIncFaults c s.pc then { s with fault := some .pcOverflow }
          else if pcIncFaults c (inc s.pc) then
            { s with
              mar := s.pc, pc := inc s.pc, i := 0x00, dec := [opFetch, memToMar, memToA], t := 2
              fault := some .pcOverflow }
          else
            { s with
              i := 0x00, mar := s.mem.read (inc s.pc), a := s.mem.read (s.mem.read (inc s.pc)), pc := inc (inc s.pc)
              dec := [opFetch, memToMar, memToA], t := 0 })) ∧
    (s.mem.read s.pc = 0x10 →
      dispatch c 0x10 = ([opFetch, memToMar, memToMar, memToA], false) ∧ instrTStates c 0x10 = 6 ∧
      stepInstr c s =
        .next (if pcIncFaults c s.pc then { s with fault := some .pcOverflow }
          else if pcIncFaults c (inc s.pc) then
            { s with
              mar := s.pc, pc := inc s.pc, i := 0x10, dec := [opFetch, memToMar, memToMar, memToA], t := 2
              fault := some .pcOverflow }
          else
            { s with
              i := 0x10, mar := s.mem.read (s.mem.read (inc s.pc))
              a := s.mem.read (s.mem.read (s.mem.read (inc s.pc))), pc := inc (inc s.pc)
              dec := [opFetch, memToMar, memToMar, memToA], t := 0 }))

/-- R121, R122, R123: ADD, in the same terms. -/
def Obligations.AddByMicrocode : Prop :=
  ∀ (c : Config) (s : State), s.atBoundary = true →
    (s.mem.read s.pc = 0x21 → dispatch c 0x21 = ([opFetch, memToB, aluToA], false) ∧ instrTStates c 0x21 = 5 ∧
      stepInstr c s =
        .next (if pcIncFaults c s.pc then { s with fault := some .pcOverflow }
          else if pcIncFaults c (inc s.pc) then
            { s with
              mar := s.pc, pc := inc s.pc, i := 0x21, dec := [opFetch, memToB, aluToA], t := 2
              fault := some .pcOverflow }
          else
            { s with
              i := 0x21, mar := inc s.pc, b := s.mem.read (inc s.pc), a := s.a + s.mem.read (inc s.pc)
              pc := inc (inc s.pc), dec := [opFetch, memToB, aluToA], t := 0 })) ∧
    (s.mem.read s.pc = 0x01 →
      dispatch c 0x01 = ([opFetch, memToMar, memToB, aluToA], false) ∧ instrTStates c 0x01 = 6 ∧
      stepInstr c s =
        .next (if pcIncFaults c s.pc then { s with fault := some .pcOverflow }
          else if pcIncFaults c (inc s.pc) then
            { s with
              mar := s.pc, pc := inc s.pc, i := 0x01, dec := [opFetch, memToMar, memToB, aluToA], t := 2
              fault := some .pcOverflow }
          else
            { s with
              i := 0x01, mar := s.mem.read (inc s.pc), b := s.mem.read (s.mem.read (inc s.pc))
              a := s.a + s.mem.read (s.mem.read (inc s.pc)), pc := inc (inc s.pc)
              dec := [opFetch, memToMar, memToB, aluToA], t := 0 })) ∧
    (s.mem.read s.pc = 0x11 →
      dispatch c 0x11 = ([opFetch, memToMar, memToMar, memToB, aluToA], false) ∧ instrTStates c 0x11 = 7 ∧
      stepInstr c s =
        .next (if pcIncFaults c s.pc then { s with fault := some .pcOverflow }
          else if pcIncFaults c (inc s.pc) then
            { s with
              mar := s.pc, pc := inc s.pc, i := 0x11, dec := [opFetch, memToMar, memToMar, memToB, aluToA], t := 2
              fault := some .pcOverflow }
          else
            { s with
              i := 0x11, mar := s.mem.read (s.mem.read (inc s.pc))
              b := s.mem.read (s.mem.read (s.mem.read (inc s.pc)))
              a := s.a + s.mem.read (s.mem.read (s.mem.read (inc s.pc))), pc := inc (inc s.pc)
              dec := [opFetch, memToMar, memToMar, memToB, aluToA], t := 0 }))

/-- R124, R125, R126: SUB, in the same terms. -/
def Obligations.SubByMicrocode : Prop :=
  ∀ (c : Config) (s : State), s.atBoundary = true →
    (s.mem.read s.pc = 0x22 → dispatch c 0x22 = ([opFetch, memToB, aluSubToA], false) ∧ instrTStates c 0x22 = 5 ∧
      stepInstr c s =
        .next (if pcIncFaults c s.pc then { s with fault := some .pcOverflow }
          else if pcIncFaults c (inc s.pc) then
            { s with
              mar := s.pc, pc := inc s.pc, i := 0x22, dec := [opFetch, memToB, aluSubToA], t := 2
              fault := some .pcOverflow }
          else
            { s with
              i := 0x22, mar := inc s.pc, b := s.mem.read (inc s.pc), a := s.a - s.mem.read (inc s.pc)
              pc := inc (inc s.pc), dec := [opFetch, memToB, aluSubToA], t := 0 })) ∧
    (s.mem.read s.pc = 0x02 →
      dispatch c 0x02 = ([opFetch, memToMar, memToB, aluSubToA], false) ∧ instrTStates c 0x02 = 6 ∧
      stepInstr c s =
        .next (if pcIncFaults c s.pc then { s with fault := some .pcOverflow }
          else if pcIncFaults c (inc s.pc) then
            { s with
              mar := s.pc, pc := inc s.pc, i := 0x02, dec := [opFetch, memToMar, memToB, aluSubToA], t := 2
              fault := some .pcOverflow }
          else
            { s with
              i := 0x02, mar := s.mem.read (inc s.pc), b := s.mem.read (s.mem.read (inc s.pc))
              a := s.a - s.mem.read (s.mem.read (inc s.pc)), pc := inc (inc s.pc)
              dec := [opFetch, memToMar, memToB, aluSubToA], t := 0 })) ∧
    (s.mem.read s.pc = 0x12 →
      dispatch c 0x12 = ([opFetch, memToMar, memToMar, memToB, aluSubToA], false) ∧ instrTStates c 0x12 = 7 ∧
      stepInstr c s =
        .next (if pcIncFaults c s.pc then { s with fault := some .pcOverflow }
          else if pcIncFaults c (inc s.pc) then
            { s with
              mar := s.pc, pc := inc s.pc, i := 0x12, dec := [opFetch, memToMar, memToMar, memToB, aluSubToA], t := 2
              fault := some .pcOverflow }
          else
            { s with
              i := 0x12, mar := s.mem.read (s.mem.read (inc s.pc))
              b := s.mem.read (s.mem.read (s.mem.read (inc s.pc)))
              a := s.a - s.mem.read (s.mem.read (s.mem.read (inc s.pc))), pc := inc (inc s.pc)
              dec := [opFetch, memToMar, memToMar, memToB, aluSubToA], t := 0 }))

/-- R128, R129: JMP run by the microcode from a boundary, for both shapes: its microprogram, its T-states, its effect and its
two faults. -/
def Obligations.JmpByMicrocode : Prop :=
  ∀ (c : Config) (s : State) (microprogram : List ControlWord), s.atBoundary = true →
    (s.mem.read s.pc = 0x33 →
      (microprogram =
        match c.branchShape with
        | .operand => [opFetch, memToPc]
        | .fetched => [opFetch, memToMar, memToPc]) →
      dispatch c 0x33 = (microprogram, false) ∧
      instrTStates c 0x33 = (match c.branchShape with
        | .operand => 4
        | .fetched => 5) ∧
      stepInstr c s =
        .next (if pcIncFaults c s.pc then { s with fault := some .pcOverflow }
          else if pcIncFaults c (inc s.pc) then
            { s with
              mar := s.pc, pc := inc s.pc, i := 0x33, dec := microprogram, t := 2, fault := some .pcOverflow }
          else
            match c.branchShape with
            | .operand =>
              { s with i := 0x33, mar := inc s.pc, pc := s.mem.read (inc s.pc), dec := microprogram, t := 0 }
            | .fetched =>
              { s with
                i := 0x33, mar := s.mem.read (inc s.pc), pc := s.mem.read (s.mem.read (inc s.pc))
                dec := microprogram, t := 0 })) ∧
    (s.mem.read s.pc = 0x43 →
      (microprogram =
        match c.branchShape with
        | .operand => [opFetch, memToMar, memToPc]
        | .fetched => [opFetch, memToMar, memToMar, memToPc]) →
      dispatch c 0x43 = (microprogram, false) ∧
      instrTStates c 0x43 = (match c.branchShape with
        | .operand => 5
        | .fetched => 6) ∧
      stepInstr c s =
        .next (if pcIncFaults c s.pc then { s with fault := some .pcOverflow }
          else if pcIncFaults c (inc s.pc) then
            { s with
              mar := s.pc, pc := inc s.pc, i := 0x43, dec := microprogram, t := 2, fault := some .pcOverflow }
          else
            match c.branchShape with
            | .operand =>
              { s with
                i := 0x43, mar := s.mem.read (inc s.pc), pc := s.mem.read (s.mem.read (inc s.pc))
                dec := microprogram, t := 0 }
            | .fetched =>
              { s with
                i := 0x43, mar := s.mem.read (s.mem.read (inc s.pc))
                pc := s.mem.read (s.mem.read (s.mem.read (inc s.pc))), dec := microprogram, t := 0 }))

/-- R130, R131, R132: OUT, NOP and HLT run by the microcode from a boundary; after HLT the machine never moves again. -/
def Obligations.OutNopHltByMicrocode : Prop :=
  ∀ (c : Config) (s : State), s.atBoundary = true →
    (s.mem.read s.pc = 0xFD → dispatch c 0xFD = ([aToO], false) ∧ instrTStates c 0xFD = 3 ∧
      stepInstr c s =
        .next (if pcIncFaults c s.pc then { s with fault := some .pcOverflow }
          else
            { s with
              i := 0xFD, mar := s.pc, pc := inc s.pc, o := s.a, out := s.out ++ [s.a], dec := [aToO], t := 0 })) ∧
    (s.mem.read s.pc = 0xFE → dispatch c 0xFE = ([], false) ∧ instrTStates c 0xFE = 2 ∧
      stepInstr c s =
        .next (if pcIncFaults c s.pc then { s with fault := some .pcOverflow }
          else { s with i := 0xFE, mar := s.pc, pc := inc s.pc, dec := [], t := 0 })) ∧
    (s.mem.read s.pc = 0xFF → dispatch c 0xFF = ([haltW], false) ∧ instrTStates c 0xFF = 3 ∧
      ∃ s', stepInstr c s = .next s' ∧
        s' = (if pcIncFaults c s.pc then { s with fault := some .pcOverflow }
          else { s with i := 0xFF, mar := s.pc, pc := inc s.pc, halted := true, dec := [haltW], t := 0 }) ∧
        (s'.fault = none → stepT c s' = .next s' ∧ stepInstr c s' = .next s'))

/-- R133, R134: an unmapped opcode run by the microcode from a boundary is reported and runs the default of `UNDEF_OP`,
consuming one byte; under `halt` the report stands before the halt does. -/
def Obligations.UnmappedByMicrocode : Prop :=
  ∀ (c : Config) (s : State), s.atBoundary = true → opcodeFields (s.mem.read s.pc) = none →
    (c.undefOp = .nop → instrTStates c (s.mem.read s.pc) = 2 ∧
      stepInstr c s =
        .next (if pcIncFaults c s.pc then { s with fault := some .pcOverflow }
          else
            { s with
              i := s.mem.read s.pc, mar := s.pc, pc := inc s.pc, reports := s.reports ++ [s.mem.read s.pc], dec := []
              t := 0 })) ∧
    (c.undefOp = .halt → instrTStates c (s.mem.read s.pc) = 3 ∧
      stepInstr c s =
        .next (if pcIncFaults c s.pc then { s with fault := some .pcOverflow }
          else
            { s with
              i := s.mem.read s.pc, mar := s.pc, pc := inc s.pc, reports := s.reports ++ [s.mem.read s.pc]
              halted := true, dec := [haltW], t := 0 }) ∧
      (pcIncFaults c s.pc = false →
        ∃ s', runTStates c 2 s = .next s' ∧ s'.reports = s.reports ++ [s.mem.read s.pc] ∧ s'.halted = false))

/-! ## Frames -/

/-- No instruction stores: every byte of memory reads after it as before (`20_memory.md` section 1). -/
def Obligations.ExecLeavesEveryMemoryByte : Prop :=
  ∀ (i : Instr) (s t : State), exec i s = .next t → ∀ a : Byte, t.mem.read a = s.mem.read a

/-- Which instructions write which register: A only LDA, ADD and SUB, B only ADD and SUB, O and the output events only OUT,
the halt flag only HLT; no instruction of the table reports, and the only fault it can add is PcOverflow (`10_state.md`
section 1). I, MAR, PC, `dec` and the index may change in every instruction. -/
def Obligations.EachRegisterHasItsWriters : Prop :=
  ∀ (i : Instr) (s t : State), exec i s = .next t →
    (i.form.mnemonic ∉ [.lda, .add, .sub] → t.a = s.a) ∧
    (i.form.mnemonic ∉ [.add, .sub] → t.b = s.b) ∧
    (i.form.mnemonic ≠ .out → t.o = s.o ∧ t.out = s.out) ∧
    (i.form.mnemonic ≠ .hlt → t.halted = s.halted) ∧
    t.reports = s.reports ∧
    (t.fault = s.fault ∨ t.fault = some .pcOverflow)

/-- No step of a run writes memory, a T-state step or a whole-instruction step, from a boundary or not (`20_memory.md`
section 1). -/
def Obligations.NoStepWritesMemory : Prop :=
  ∀ (c : Config) (s s' : State), s.Inv c → (stepT c s = .next s' ∨ stepInstr c s = .next s') →
    ∀ a : Byte, s'.mem.read a = s.mem.read a

/-- The events of a step from a boundary: an output event exactly for an OUT that is fetched, with A's value, and a report
exactly for an unmapped opcode that is fetched (`10_state.md` section 5). -/
def Obligations.EventsOfAStep : Prop :=
  ∀ s s' : State, s.atBoundary = true → step s = .next s' →
    s'.out = s.out ++ (if s.mem.read s.pc = 0xFD ∧ pcIncFaults Config.chip s.pc = false then [s.a] else []) ∧
    s'.reports =
      s.reports ++
        (if opcodeFields (s.mem.read s.pc) = none ∧ pcIncFaults Config.chip s.pc = false then [s.mem.read s.pc]
          else [])

/-- B carries nothing from one instruction to the next: two machines at a boundary that differ in B alone differ in B at most
after a step (`92_eei_decisions.md` D8). -/
def Obligations.BNeverLeaksIntoTheRest : Prop :=
  ∀ (s s₁ : State) (b : Byte), s.atBoundary = true → step s = .next s₁ →
    ∃ s₂, step { s with b := b } = .next s₂ ∧ { s₂ with b := s₁.b } = s₁

/-! ## Invariants -/

/-- The state after reset has the invariant, for every configuration. -/
def Obligations.ResetHasTheInvariant : Prop := ∀ c : Config, State.reset.Inv c

/-- Every whole-instruction step keeps the invariant: the bounds of the index and of `dec`, `dec` the dispatch of I while an
instruction executes, the halt only at a boundary, never halted and faulted, only the faults the table can raise, and the
canonical memory (`10_state.md` sections 4 and 7). -/
def Obligations.StepKeepsTheInvariant : Prop :=
  ∀ s s' : State, s.Inv Config.chip → step s = .next s' → s'.Inv Config.chip

/-- Every single-T-state step keeps the invariant, for every configuration, and from the invariant a running machine is never
refused one (`10_state.md` sections 4 and 7). -/
def Obligations.TStateKeepsTheInvariant : Prop :=
  ∀ (c : Config) (s : State), s.Inv c →
    (∀ s', stepT c s = .next s' → s'.Inv c) ∧ (s.running = true → ∃ s', stepT c s = .next s' ∧ s'.Inv c)

/-- Whatever the host does, in whatever order, the machine keeps the invariant, and a session that is right after a reset
holds exactly the reset state (`70_reset_and_hazards.md` section 3). The session's `fresh` bit is the model's (log entry 11). -/
def Obligations.EveryHostMoveKeepsTheInvariant : Prop :=
  ∀ (move : HostMove) (session : Session) (answer : Answer),
    session.machine.Inv Config.chip → (session.fresh = true → session.machine = State.reset) →
    hostMove move session = .next answer →
      answer.session.machine.Inv Config.chip ∧ (answer.session.fresh = true → answer.session.machine = State.reset)

/-! ## Reset and the host -/

/-- R153: reset, from any state, sets every piece of state to the value the spec gives, and the first T-state after it is
fetch T0 at PC = 0. -/
def Obligations.ResetValues : Prop :=
  ∀ s : State,
    s.afterReset.a = 0x00 ∧ s.afterReset.b = 0x00 ∧ s.afterReset.mar = 0x00 ∧ s.afterReset.i = 0x00 ∧
    s.afterReset.pc = 0x00 ∧ s.afterReset.o = 0x00 ∧ (∀ a : Byte, s.afterReset.mem.read a = 0x00) ∧
    s.afterReset.halted = false ∧ s.afterReset.t = 0 ∧ s.afterReset.dec = [] ∧ s.afterReset.fault = none ∧
    s.afterReset = State.reset ∧ currentWord s.afterReset = some fetch0

/-- R161: a load from reset of at most 256 bytes in range puts each byte at its address, leaves every other byte 0x00, MAR at
the last address until fetch T0 overwrites it, and changes nothing else; a longer one stops at address 256 with the first 256 bytes loaded; a value out
of range stops it at that byte with the bytes before it loaded. -/
def Obligations.LoadPlacesTheProgram : Prop :=
  ∀ program : List Int,
    ((program.length ≤ 256 ∧ ∀ v ∈ program, 0 ≤ v ∧ v < 256) →
      (∀ a : Byte, (((loadProgram program State.reset).mem.read a).toNat : Int) = (program[a.toNat]?).getD 0) ∧
      loadProgram program State.reset =
        { State.reset with
          mem := (loadProgram program State.reset).mem, mar := BitVec.ofNat 8 (program.length - 1) } ∧
      (∀ c : Config,
        stepT c (loadProgram program State.reset) =
          .next { loadProgram program State.reset with mar := 0x00, pc := 0x01, t := 1 })) ∧
    ((256 < program.length ∧ ∀ v ∈ program.take 256, 0 ≤ v ∧ v < 256) →
      (∀ a : Byte, (((loadProgram program State.reset).mem.read a).toNat : Int) = (program[a.toNat]?).getD 0) ∧
      (loadProgram program State.reset).fault = some .loadAddressOutOfRange) ∧
    (∀ (k : Nat) (bad : Int), k < 256 → program[k]? = some bad → ¬(0 ≤ bad ∧ bad < 256) →
      (∀ v ∈ program.take k, 0 ≤ v ∧ v < 256) →
        (∀ a : Byte,
          (((loadProgram program State.reset).mem.read a).toNat : Int) = ((program.take k)[a.toNat]?).getD 0) ∧
        (loadProgram program State.reset).fault = some .loadValueOutOfRange)

/-- A load is admitted right after a reset and at no other time; every other move but a bulk read ends that time
(`70_reset_and_hazards.md` section 3). The session's `fresh` bit is the model's way to know it (log entry 11). -/
def Obligations.LoadOnlyRightAfterReset : Prop :=
  ∀ (session : Session) (program : List Int),
    (session.fresh = false → hostMove (.load program) session = .refused .loadNotAfterReset) ∧
    (session.fresh = true →
      hostMove (.load program) session = .next (loadAnswer (loadProgram program session.machine))) ∧
    (∀ (move : HostMove) (answer : Answer), hostMove move session = .next answer →
      (answer.session.fresh = true ↔ move = .reset ∨ (move = .bulkRead ∧ session.fresh = true)))

/-- R54: the bulk read is a 16×16 grid of the memory, row-major, in every machine mode, and changes no state. -/
def Obligations.BulkReadIsTheMemory : Prop :=
  ∀ session : Session,
    (∃ answer : Answer, hostMove .bulkRead session = .next answer ∧ answer.session = session ∧
      answer.reply = .grid (bulkRead session.machine)) ∧
    (bulkRead session.machine).length = 16 ∧
    (∀ row ∈ bulkRead session.machine, row.length = 16) ∧
    (∀ r c : Nat, r < 16 → c < 16 →
      ((bulkRead session.machine)[r]?.bind (fun row => row[c]?)) =
        some (session.machine.mem.read (BitVec.ofNat 8 (16 * r + c))))

/-! ## The assembly language -/

/-- The label addresses of pass 1 are exact: the address recorded for a label is the number of bytes that pass 2 emits for
the lines before it (`30_encoding.md` section 7). -/
def Obligations.LabelAddressesAreExact : Prop :=
  ∀ (before after : List SourceLine) (name : List Char) (symbols : SymbolTable) (bytes : List Byte),
    collectLabels (before ++ .label name :: after) 0 [] = .ok symbols → emitLines symbols before = .ok bytes →
      symbols.lookup name = some bytes.length

/-- Whatever error the assembler reports, the text it reports is a piece of the source as it is written, its inner white space
included (`30_encoding.md` section 7). -/
def Obligations.AssemblyErrorsQuoteTheSource : Prop :=
  ∀ (source : List Char) (e : AsmError), assemble source = .error e → e.text <:+: source
end

