-- ==== Sys2Proof/Laws/Assembler.lean ====
section
/-! SUPPORT. The assembler's errors: the text of an error is the operand or the line it came from, never a rewritten one. -/

namespace Sys2Proof.Machine

/-- An operand resolves with no error, or fails on a label the table does not hold, quoting the operand's text (R77). -/
theorem resolve_error {symbols : SymbolTable} {text : List Char} {value : OperandValue} {e : AsmError}
    (h : resolve symbols text value = .error e) : ∃ name, value = .label name ∧ e = .undefinedLabel name text := by
  cases value with
  | literal v => cases h
  | label name =>
    simp only [resolve] at h
    split at h <;> cases h
    exact ⟨name, rfl, rfl⟩

/-- An error of a code line quotes the operand's literal text, or the mnemonic where there is no operand (R77). -/
theorem encodeLine_error_text {symbols : SymbolTable} {mn : Mnemonic} {operand : Option (List Char)} {e : AsmError}
    (h : encodeLine symbols mn operand = .error e) : e.text = operand.getD (mnemonicSpelling mn) := by
  cases operand with
  | none =>
    simp only [encodeLine] at h
    split at h <;> cases h
    rfl
  | some text =>
    simp only [encodeLine] at h
    split at h
    · cases h; rfl
    · split at h
      · cases h; rfl
      · split at h
        · cases h; rfl
        · rename_i hr
          cases h
          obtain ⟨name, _, rfl⟩ := resolve_error hr
          rfl
        · split at h <;> cases h
          rfl

/-- Trimming takes a piece of the text. -/
theorem trimBlanks_infix (text : List Char) : trimBlanks text <:+: text := by
  have h : trimBlanks text <+: text.dropWhile isBlank := by
    rw [← List.reverse_suffix, trimBlanks, List.reverse_reverse]
    exact List.dropWhile_suffix _
  exact h.isInfix.trans (List.dropWhile_suffix _).isInfix

/-- A cleaned line is a piece of the line. -/
theorem cleanLine_infix (line : List Char) : cleanLine line <:+: line :=
  (trimBlanks_infix _).trans (List.takeWhile_prefix _).isInfix

end Sys2Proof.Machine
end

