-- ==== Sys2Proof/Laws/Memory.lean ====
section
/-! SUPPORT. Memory: a write keeps the canonical form, is read back, and leaves every other byte; memories in canonical form
that read the same are the same list. -/

namespace Sys2Proof.Machine

theorem Memory.wfFrom_cons {low k : Nat} {v : Byte} {m : Memory} :
    Memory.wfFrom low ((k, v) :: m) = true ↔ low ≤ k ∧ k < 256 ∧ v ≠ Memory.unlisted ∧ Memory.wfFrom (k + 1) m = true := by
  simp [Memory.wfFrom, Bool.and_eq_true, and_assoc]

/-- A canonical form stays one from any lower address on. -/
theorem Memory.wfFrom_mono {low low' : Nat} (h : low' ≤ low) {m : Memory} (hm : Memory.wfFrom low m = true) :
    Memory.wfFrom low' m = true := by
  cases m with
  | nil => rfl
  | cons cell m =>
    obtain ⟨hk, hrest⟩ := Memory.wfFrom_cons.1 hm
    exact Memory.wfFrom_cons.2 ⟨h.trans hk, hrest⟩

/-- Below the lowest listed address everything reads as unlisted. -/
theorem Memory.readAt_below {low a : Nat} {m : Memory} (hm : Memory.wfFrom low m = true) (h : a < low) :
    Memory.readAt m a = Memory.unlisted := by
  induction m generalizing low with
  | nil => rfl
  | cons cell m ih =>
    obtain ⟨hk, _, _, hrest⟩ := Memory.wfFrom_cons.1 hm
    have hne : cell.1 ≠ a := by omega
    simpa [Memory.readAt, hne] using ih hrest (by omega)

theorem Memory.writeAt_wfFrom {low a : Nat} {v : Byte} {m : Memory} (hm : Memory.wfFrom low m = true) (hlow : low ≤ a)
    (ha : a < 256) : Memory.wfFrom low (Memory.writeAt m a v) = true := by
  induction m generalizing low with
  | nil =>
    by_cases hv : v = Memory.unlisted
    · simp [Memory.writeAt, hv, Memory.wfFrom]
    · simp [Memory.writeAt, hv, Memory.wfFrom, hlow, ha]
  | cons cell m ih =>
    obtain ⟨k, w⟩ := cell
    obtain ⟨hk, hk', hw, hrest⟩ := Memory.wfFrom_cons.1 hm
    rcases lt_trichotomy a k with h | h | h
    · by_cases hv : v = Memory.unlisted
      · simpa [Memory.writeAt, h, hv] using hm
      · simp only [Memory.writeAt, h, hv, if_true, if_false]
        exact Memory.wfFrom_cons.2 ⟨hlow, ha, hv, Memory.wfFrom_cons.2 ⟨by omega, hk', hw, hrest⟩⟩
    · subst h
      by_cases hv : v = Memory.unlisted
      · simp only [Memory.writeAt, lt_irrefl, hv, if_true, if_false]
        exact Memory.wfFrom_mono (by omega) hrest
      · simp only [Memory.writeAt, lt_irrefl, hv, if_true, if_false]
        exact Memory.wfFrom_cons.2 ⟨hlow, ha, hv, hrest⟩
    · have h₁ : ¬ a < k := by omega
      have h₂ : a ≠ k := by omega
      simp only [Memory.writeAt, h₁, h₂, if_false]
      exact Memory.wfFrom_cons.2 ⟨hk, hk', hw, ih hrest (by omega)⟩

/-- Every write keeps the canonical form. -/
theorem Memory.write_wf {m : Memory} (hm : m.wf = true) (a v : Byte) : (m.write a v).wf = true :=
  Memory.writeAt_wfFrom hm (Nat.zero_le _) a.isLt

theorem Memory.readAt_writeAt_same {low a : Nat} {v : Byte} {m : Memory} (hm : Memory.wfFrom low m = true) :
    Memory.readAt (Memory.writeAt m a v) a = v := by
  induction m generalizing low with
  | nil => by_cases hv : v = Memory.unlisted <;> simp [Memory.writeAt, hv, Memory.readAt]
  | cons cell m ih =>
    obtain ⟨k, w⟩ := cell
    obtain ⟨_, _, _, hrest⟩ := Memory.wfFrom_cons.1 hm
    rcases lt_trichotomy a k with h | h | h
    · by_cases hv : v = Memory.unlisted
      · have hne : k ≠ a := by omega
        simp [Memory.writeAt, h, hv, Memory.readAt, hne, Memory.readAt_below hrest (show a < k + 1 by omega)]
      · simp [Memory.writeAt, h, hv, Memory.readAt]
    · subst h
      by_cases hv : v = Memory.unlisted
      · simp [Memory.writeAt, hv, Memory.readAt_below hrest (Nat.lt_succ_self a)]
      · simp [Memory.writeAt, hv, Memory.readAt]
    · have h₁ : ¬ a < k := by omega
      have h₂ : a ≠ k := by omega
      simp [Memory.writeAt, h₁, h₂, Memory.readAt, Ne.symm h₂, ih hrest]

theorem Memory.readAt_writeAt_other {a b : Nat} (v : Byte) (m : Memory) (h : b ≠ a) :
    Memory.readAt (Memory.writeAt m a v) b = Memory.readAt m b := by
  induction m with
  | nil => by_cases hv : v = Memory.unlisted <;> simp [Memory.writeAt, hv, Memory.readAt, Ne.symm h]
  | cons cell m ih =>
    obtain ⟨k, w⟩ := cell
    rcases lt_trichotomy a k with h' | h' | h'
    · by_cases hv : v = Memory.unlisted <;> simp [Memory.writeAt, h', hv, Memory.readAt, Ne.symm h]
    · subst h'
      by_cases hv : v = Memory.unlisted <;> simp [Memory.writeAt, hv, Memory.readAt, Ne.symm h]
    · have h₁ : ¬ a < k := by omega
      have h₂ : a ≠ k := by omega
      simp [Memory.writeAt, h₁, h₂, Memory.readAt, ih]

/-- A byte written is read back. -/
theorem Memory.read_write_same {m : Memory} (hm : m.wf = true) (a v : Byte) : (m.write a v).read a = v :=
  Memory.readAt_writeAt_same hm

/-- A write leaves every other byte alone. -/
theorem Memory.read_write_other (m : Memory) {a b : Byte} (v : Byte) (h : b ≠ a) : (m.write a v).read b = m.read b :=
  Memory.readAt_writeAt_other v m (fun e => h (BitVec.eq_of_toNat_eq e))

theorem Memory.eq_of_readAt {low : Nat} {m m' : Memory} (hm : Memory.wfFrom low m = true)
    (hm' : Memory.wfFrom low m' = true) (h : ∀ a, Memory.readAt m a = Memory.readAt m' a) : m = m' := by
  induction m generalizing low m' with
  | nil =>
    cases m' with
    | nil => rfl
    | cons cell' m' =>
      have hv := (Memory.wfFrom_cons.1 hm').2.2.1
      exact absurd (by simpa [Memory.readAt] using (h cell'.1).symm) hv
  | cons cell m ih =>
    obtain ⟨k, w⟩ := cell
    obtain ⟨_, _, hw, hrest⟩ := Memory.wfFrom_cons.1 hm
    cases m' with
    | nil => exact absurd (by simpa [Memory.readAt] using h k) hw
    | cons cell' m' =>
      obtain ⟨k', w'⟩ := cell'
      obtain ⟨_, _, hw', hrest'⟩ := Memory.wfFrom_cons.1 hm'
      have hkk : k = k' := by
        rcases lt_trichotomy k k' with hlt | heq | hgt
        · have := h k
          simp [Memory.readAt, Nat.ne_of_gt hlt, Memory.readAt_below hrest' (show k < k' + 1 by omega)] at this
          exact absurd this hw
        · exact heq
        · have := h k'
          simp [Memory.readAt, Nat.ne_of_gt hgt, Memory.readAt_below hrest (show k' < k + 1 by omega)] at this
          exact absurd this.symm hw'
      subst hkk
      have hww : w = w' := by simpa [Memory.readAt] using h k
      subst hww
      refine congrArg _ (ih hrest hrest' (fun a => ?_))
      by_cases hak : k = a
      · subst hak
        rw [Memory.readAt_below hrest (Nat.lt_succ_self k), Memory.readAt_below hrest' (Nat.lt_succ_self k)]
      · simpa [Memory.readAt, hak] using h a

theorem Memory.readAt_above {low a : Nat} {m : Memory} (hm : Memory.wfFrom low m = true) (h : 256 ≤ a) :
    Memory.readAt m a = Memory.unlisted := by
  induction m generalizing low with
  | nil => rfl
  | cons cell m ih =>
    obtain ⟨_, hk', _, hrest⟩ := Memory.wfFrom_cons.1 hm
    have hne : cell.1 ≠ a := by omega
    simpa [Memory.readAt, hne] using ih hrest

/-- Memories in canonical form that read the same at every address are the same data. -/
theorem Memory.eq_of_read {m m' : Memory} (hm : m.wf = true) (hm' : m'.wf = true) (h : ∀ a, m.read a = m'.read a) :
    m = m' := by
  refine Memory.eq_of_readAt hm hm' (fun a => ?_)
  by_cases ha : a < 256
  · simpa [Memory.read, Nat.mod_eq_of_lt ha] using h (BitVec.ofNat 8 a)
  · rw [Memory.readAt_above hm (by omega), Memory.readAt_above hm' (by omega)]

@[simp] theorem Memory.wf_nil : Memory.wf [] = true := rfl

@[simp] theorem Memory.read_nil (a : Byte) : Memory.read [] a = Memory.unlisted := rfl

end Sys2Proof.Machine
end

