-- ==== Sys2Proof/Laws/HostPort.lean ====
section
/-! SUPPORT. The host's load: its pulses and what a whole load leaves alone. -/

namespace Sys2Proof.Machine

/-- The first pulse of a byte's load writes MAR alone (R160). -/
theorem loadAddressPulse_eq (a : Byte) (s : State) : loadAddressPulse a s = { s with mar := a } := by
  simp [loadAddressPulse, clock, latch, latchMemory, emitted, nextPc]

/-- The second pulse writes the byte at MAR alone (R160). -/
theorem loadDataPulse_eq (v : Byte) (s : State) : loadDataPulse v s = { s with mem := s.mem.write s.mar v } := by
  simp [loadDataPulse, clock, latch, latchMemory, emitted, nextPc]

/-- One byte of a load. -/
theorem loadPulses_eq (a v : Byte) (s : State) :
    loadDataPulse v (loadAddressPulse a s) = { s with mar := a, mem := s.mem.write a v } := by
  rw [loadAddressPulse_eq, loadDataPulse_eq]

/-- A load changes memory, MAR and the fault state, and no other field (R161). -/
theorem loadFrom_frame (program : List Int) (address : Nat) (s : State) :
    loadFrom address program s =
      { s with
        mem := (loadFrom address program s).mem
        mar := (loadFrom address program s).mar
        fault := (loadFrom address program s).fault } := by
  induction program generalizing address s with
  | nil => rfl
  | cons v rest ih =>
    rw [loadFrom]
    split
    · rfl
    · split
      · rw [ih, loadPulses_eq]
      · rw [loadAddressPulse_eq]; rfl

/-- A load keeps the canonical form of memory. -/
theorem loadFrom_wf (program : List Int) (address : Nat) {s : State} (h : s.mem.wf = true) :
    (loadFrom address program s).mem.wf = true := by
  induction program generalizing address s with
  | nil => exact h
  | cons v rest ih =>
    rw [loadFrom]
    split
    · exact h
    · split
      · exact ih _ (by rw [loadPulses_eq]; exact Memory.write_wf h _ _)
      · rw [loadAddressPulse_eq]; exact h

/-- A load raises one of its own two faults or none (R140). -/
theorem loadFrom_fault (program : List Int) (address : Nat) (s : State) :
    (loadFrom address program s).fault = s.fault ∨
      (loadFrom address program s).fault = some .loadAddressOutOfRange ∨
      (loadFrom address program s).fault = some .loadValueOutOfRange := by
  induction program generalizing address s with
  | nil => exact .inl rfl
  | cons v rest ih =>
    rw [loadFrom]
    split
    · exact .inr (.inl rfl)
    · split
      · have h := ih (address + 1) (loadDataPulse (BitVec.ofInt 8 v) (loadAddressPulse (BitVec.ofNat 8 address) s))
        rw [loadPulses_eq] at h ⊢
        exact h
      · exact .inr (.inr rfl)

end Sys2Proof.Machine
end

