-- ==== Sys2Proof/Laws/Microcode.lean ====
section
/-! SUPPORT. What the opcode table holds: each opcode's microprogram, the one case split on a dispatched opcode, and what no
microprogram of the table does. -/

namespace Sys2Proof.Machine

/-! The opcode byte of each row. -/

@[simp] theorem opcodeByte_lda_absolute : opcodeByte .lda .absolute = 0x00 := rfl
@[simp] theorem opcodeByte_add_absolute : opcodeByte .add .absolute = 0x01 := rfl
@[simp] theorem opcodeByte_sub_absolute : opcodeByte .sub .absolute = 0x02 := rfl
@[simp] theorem opcodeByte_lda_indirect : opcodeByte .lda .indirect = 0x10 := rfl
@[simp] theorem opcodeByte_add_indirect : opcodeByte .add .indirect = 0x11 := rfl
@[simp] theorem opcodeByte_sub_indirect : opcodeByte .sub .indirect = 0x12 := rfl
@[simp] theorem opcodeByte_lda_immediate : opcodeByte .lda .immediate = 0x20 := rfl
@[simp] theorem opcodeByte_add_immediate : opcodeByte .add .immediate = 0x21 := rfl
@[simp] theorem opcodeByte_sub_immediate : opcodeByte .sub .immediate = 0x22 := rfl
@[simp] theorem opcodeByte_jmp_absolute : opcodeByte .jmp .absoluteBranching = 0x33 := rfl
@[simp] theorem opcodeByte_jmp_indirect : opcodeByte .jmp .indirectBranching = 0x43 := rfl
@[simp] theorem opcodeByte_out : opcodeByte .out .implied = 0xFD := rfl
@[simp] theorem opcodeByte_nop : opcodeByte .nop .implied = 0xFE := rfl
@[simp] theorem opcodeByte_hlt : opcodeByte .hlt .implied = 0xFF := rfl

/-- Dispatch and the decoder read the same table: a byte with fields runs their microprogram and is not reported, any other
byte runs the default and is (R100). -/
theorem dispatch_of_fields (c : Config) (op : Byte) :
    dispatch c op = (opcodeFields op).elim (defaultOps c, true) (fun f => (executeOps c f.1 f.2, false)) := by
  obtain ⟨u, p, b⟩ := c
  revert op
  cases u <;> cases p <;> cases b <;> decide

theorem dispatch_mapped (c : Config) {op : Byte} {mn : Mnemonic} {m : AddrMode} (h : opcodeFields op = some (mn, m)) :
    dispatch c op = (executeOps c mn m, false) := by
  simp [dispatch_of_fields, h]

theorem dispatch_unmapped (c : Config) {op : Byte} (h : opcodeFields op = none) :
    dispatch c op = (defaultOps c, true) := by
  simp [dispatch_of_fields, h]

theorem opcodeFields_sound (op : Byte) :
    (opcodeFields op).all (fun f => opcodeByte f.1 f.2 == op && f.1.legalModes.contains f.2) = true := by
  revert op
  decide

/-- The fields of a row's opcode byte are the row's. -/
theorem opcodeFields_opcodeByte {mn : Mnemonic} {m : AddrMode} (h : m ∈ mn.legalModes) :
    opcodeFields (opcodeByte mn m) = some (mn, m) := by
  cases mn <;> cases m <;> first | rfl | exact absurd h (by decide)

/-- A byte with fields is the opcode byte of their row, and the row is one of the table. -/
theorem opcodeFields_eq_some {op : Byte} {mn : Mnemonic} {m : AddrMode} (h : opcodeFields op = some (mn, m)) :
    opcodeByte mn m = op ∧ m ∈ mn.legalModes := by
  simpa [h] using opcodeFields_sound op

theorem dispatch_opcodeByte (c : Config) {mn : Mnemonic} {m : AddrMode} (h : m ∈ mn.legalModes) :
    dispatch c (opcodeByte mn m) = (executeOps c mn m, false) :=
  dispatch_mapped c (opcodeFields_opcodeByte h)

/-- What every execute microprogram is: one of a row of the table, or the default of an unmapped opcode. -/
theorem dispatch_cases (c : Config) (op : Byte) :
    (∃ mn m, m ∈ mn.legalModes ∧ op = opcodeByte mn m ∧ dispatch c op = (executeOps c mn m, false)) ∨
      (opcodeFields op = none ∧ dispatch c op = (defaultOps c, true)) := by
  cases h : opcodeFields op with
  | none => exact .inr ⟨rfl, dispatch_unmapped c h⟩
  | some f =>
    obtain ⟨hop, hm⟩ := opcodeFields_eq_some h
    exact .inl ⟨f.1, f.2, hm, hop.symm, dispatch_mapped c h⟩

/-! The microprogram of each row, the opcode in the literal form `simp` brings it to. -/

@[simp] theorem dispatch_lda_absolute (c : Config) : dispatch c 0x00#8 = ([opFetch, memToMar, memToA], false) := rfl
@[simp] theorem dispatch_add_absolute (c : Config) : dispatch c 0x01#8 = ([opFetch, memToMar, memToB, aluToA], false) := rfl
@[simp] theorem dispatch_sub_absolute (c : Config) : dispatch c 0x02#8 = ([opFetch, memToMar, memToB, aluSubToA], false) := rfl
@[simp] theorem dispatch_lda_indirect (c : Config) : dispatch c 0x10#8 = ([opFetch, memToMar, memToMar, memToA], false) := rfl
@[simp] theorem dispatch_add_indirect (c : Config) : dispatch c 0x11#8 = ([opFetch, memToMar, memToMar, memToB, aluToA], false) := rfl
@[simp] theorem dispatch_sub_indirect (c : Config) : dispatch c 0x12#8 = ([opFetch, memToMar, memToMar, memToB, aluSubToA], false) := rfl
@[simp] theorem dispatch_lda_immediate (c : Config) : dispatch c 0x20#8 = ([opFetch, memToA], false) := rfl
@[simp] theorem dispatch_add_immediate (c : Config) : dispatch c 0x21#8 = ([opFetch, memToB, aluToA], false) := rfl
@[simp] theorem dispatch_sub_immediate (c : Config) : dispatch c 0x22#8 = ([opFetch, memToB, aluSubToA], false) := rfl
@[simp] theorem dispatch_out (c : Config) : dispatch c 0xFD#8 = ([aToO], false) := rfl
@[simp] theorem dispatch_nop (c : Config) : dispatch c 0xFE#8 = ([], false) := rfl
@[simp] theorem dispatch_hlt (c : Config) : dispatch c 0xFF#8 = ([haltW], false) := rfl

@[simp] theorem dispatch_jmp_absolute (c : Config) :
    dispatch c 0x33#8 = (modeOps c .absoluteBranching ++ [memToPc], false) := rfl

@[simp] theorem dispatch_jmp_indirect (c : Config) :
    dispatch c 0x43#8 = (modeOps c .indirectBranching ++ [memToPc], false) := rfl

/-- No execute microprogram is longer than 5 control words (R8, R30). -/
theorem dispatch_length_le (c : Config) (op : Byte) : (dispatch c op).1.length ≤ 5 := by
  obtain ⟨u, p, b⟩ := c
  revert op
  cases u <;> cases p <;> cases b <;> decide

end Sys2Proof.Machine
end

