-- ==== Sys2Proof/Laws/State.lean ====
section
/-! SUPPORT. One lemma for each field of the state and each named update, true by `rfl`: what the update writes and, field by
field, what it leaves. Later proofs simplify with these and unfold no record update. -/

namespace Sys2Proof.Machine

/-! Raising a fault. -/

@[simp] theorem State.raise_a (s : State) (k : Fault) : (s.raise k).a = s.a := rfl
@[simp] theorem State.raise_b (s : State) (k : Fault) : (s.raise k).b = s.b := rfl
@[simp] theorem State.raise_mar (s : State) (k : Fault) : (s.raise k).mar = s.mar := rfl
@[simp] theorem State.raise_i (s : State) (k : Fault) : (s.raise k).i = s.i := rfl
@[simp] theorem State.raise_pc (s : State) (k : Fault) : (s.raise k).pc = s.pc := rfl
@[simp] theorem State.raise_o (s : State) (k : Fault) : (s.raise k).o = s.o := rfl
@[simp] theorem State.raise_mem (s : State) (k : Fault) : (s.raise k).mem = s.mem := rfl
@[simp] theorem State.raise_halted (s : State) (k : Fault) : (s.raise k).halted = s.halted := rfl
@[simp] theorem State.raise_t (s : State) (k : Fault) : (s.raise k).t = s.t := rfl
@[simp] theorem State.raise_dec (s : State) (k : Fault) : (s.raise k).dec = s.dec := rfl
@[simp] theorem State.raise_fault (s : State) (k : Fault) : (s.raise k).fault = some k := rfl
@[simp] theorem State.raise_out (s : State) (k : Fault) : (s.raise k).out = s.out := rfl
@[simp] theorem State.raise_reports (s : State) (k : Fault) : (s.raise k).reports = s.reports := rfl

/-! Setting the halt flag. -/

@[simp] theorem State.setHalted_a (s : State) : (s.setHalted).a = s.a := rfl
@[simp] theorem State.setHalted_b (s : State) : (s.setHalted).b = s.b := rfl
@[simp] theorem State.setHalted_mar (s : State) : (s.setHalted).mar = s.mar := rfl
@[simp] theorem State.setHalted_i (s : State) : (s.setHalted).i = s.i := rfl
@[simp] theorem State.setHalted_pc (s : State) : (s.setHalted).pc = s.pc := rfl
@[simp] theorem State.setHalted_o (s : State) : (s.setHalted).o = s.o := rfl
@[simp] theorem State.setHalted_mem (s : State) : (s.setHalted).mem = s.mem := rfl
@[simp] theorem State.setHalted_halted (s : State) : (s.setHalted).halted = true := rfl
@[simp] theorem State.setHalted_t (s : State) : (s.setHalted).t = s.t := rfl
@[simp] theorem State.setHalted_dec (s : State) : (s.setHalted).dec = s.dec := rfl
@[simp] theorem State.setHalted_fault (s : State) : (s.setHalted).fault = s.fault := rfl
@[simp] theorem State.setHalted_out (s : State) : (s.setHalted).out = s.out := rfl
@[simp] theorem State.setHalted_reports (s : State) : (s.setHalted).reports = s.reports := rfl

/-! The wrap to fetch T0. -/

@[simp] theorem State.endInstr_a (s : State) : (s.endInstr).a = s.a := rfl
@[simp] theorem State.endInstr_b (s : State) : (s.endInstr).b = s.b := rfl
@[simp] theorem State.endInstr_mar (s : State) : (s.endInstr).mar = s.mar := rfl
@[simp] theorem State.endInstr_i (s : State) : (s.endInstr).i = s.i := rfl
@[simp] theorem State.endInstr_pc (s : State) : (s.endInstr).pc = s.pc := rfl
@[simp] theorem State.endInstr_o (s : State) : (s.endInstr).o = s.o := rfl
@[simp] theorem State.endInstr_mem (s : State) : (s.endInstr).mem = s.mem := rfl
@[simp] theorem State.endInstr_halted (s : State) : (s.endInstr).halted = s.halted := rfl
@[simp] theorem State.endInstr_t (s : State) : (s.endInstr).t = 0 := rfl
@[simp] theorem State.endInstr_dec (s : State) : (s.endInstr).dec = s.dec := rfl
@[simp] theorem State.endInstr_fault (s : State) : (s.endInstr).fault = s.fault := rfl
@[simp] theorem State.endInstr_out (s : State) : (s.endInstr).out = s.out := rfl
@[simp] theorem State.endInstr_reports (s : State) : (s.endInstr).reports = s.reports := rfl

/-! Reporting an unmapped opcode. -/

@[simp] theorem State.report_a (s : State) (op : Byte) : (s.report op).a = s.a := rfl
@[simp] theorem State.report_b (s : State) (op : Byte) : (s.report op).b = s.b := rfl
@[simp] theorem State.report_mar (s : State) (op : Byte) : (s.report op).mar = s.mar := rfl
@[simp] theorem State.report_i (s : State) (op : Byte) : (s.report op).i = s.i := rfl
@[simp] theorem State.report_pc (s : State) (op : Byte) : (s.report op).pc = s.pc := rfl
@[simp] theorem State.report_o (s : State) (op : Byte) : (s.report op).o = s.o := rfl
@[simp] theorem State.report_mem (s : State) (op : Byte) : (s.report op).mem = s.mem := rfl
@[simp] theorem State.report_halted (s : State) (op : Byte) : (s.report op).halted = s.halted := rfl
@[simp] theorem State.report_t (s : State) (op : Byte) : (s.report op).t = s.t := rfl
@[simp] theorem State.report_dec (s : State) (op : Byte) : (s.report op).dec = s.dec := rfl
@[simp] theorem State.report_fault (s : State) (op : Byte) : (s.report op).fault = s.fault := rfl
@[simp] theorem State.report_out (s : State) (op : Byte) : (s.report op).out = s.out := rfl
@[simp] theorem State.report_reports (s : State) (op : Byte) : (s.report op).reports = s.reports ++ [op] := rfl

/-! The two fetch T-states. -/

@[simp] theorem State.afterFetch_a (s : State) (c : Config) (op : Byte) : (s.afterFetch c op).a = s.a := rfl
@[simp] theorem State.afterFetch_b (s : State) (c : Config) (op : Byte) : (s.afterFetch c op).b = s.b := rfl
@[simp] theorem State.afterFetch_mar (s : State) (c : Config) (op : Byte) : (s.afterFetch c op).mar = s.pc := rfl
@[simp] theorem State.afterFetch_i (s : State) (c : Config) (op : Byte) : (s.afterFetch c op).i = op := rfl
@[simp] theorem State.afterFetch_pc (s : State) (c : Config) (op : Byte) : (s.afterFetch c op).pc = inc s.pc := rfl
@[simp] theorem State.afterFetch_o (s : State) (c : Config) (op : Byte) : (s.afterFetch c op).o = s.o := rfl
@[simp] theorem State.afterFetch_mem (s : State) (c : Config) (op : Byte) : (s.afterFetch c op).mem = s.mem := rfl
@[simp] theorem State.afterFetch_halted (s : State) (c : Config) (op : Byte) : (s.afterFetch c op).halted = s.halted := rfl
@[simp] theorem State.afterFetch_t (s : State) (c : Config) (op : Byte) : (s.afterFetch c op).t = 2 := rfl
@[simp] theorem State.afterFetch_dec (s : State) (c : Config) (op : Byte) : (s.afterFetch c op).dec = (dispatch c op).1 := rfl
@[simp] theorem State.afterFetch_fault (s : State) (c : Config) (op : Byte) : (s.afterFetch c op).fault = s.fault := rfl
@[simp] theorem State.afterFetch_out (s : State) (c : Config) (op : Byte) : (s.afterFetch c op).out = s.out := rfl
@[simp] theorem State.afterFetch_reports (s : State) (c : Config) (op : Byte) : (s.afterFetch c op).reports = s.reports := rfl

/-! The operand fetch. -/

@[simp] theorem State.afterOperandFetch_a (s : State) : (s.afterOperandFetch).a = s.a := rfl
@[simp] theorem State.afterOperandFetch_b (s : State) : (s.afterOperandFetch).b = s.b := rfl
@[simp] theorem State.afterOperandFetch_mar (s : State) : (s.afterOperandFetch).mar = s.pc := rfl
@[simp] theorem State.afterOperandFetch_i (s : State) : (s.afterOperandFetch).i = s.i := rfl
@[simp] theorem State.afterOperandFetch_pc (s : State) : (s.afterOperandFetch).pc = inc s.pc := rfl
@[simp] theorem State.afterOperandFetch_o (s : State) : (s.afterOperandFetch).o = s.o := rfl
@[simp] theorem State.afterOperandFetch_mem (s : State) : (s.afterOperandFetch).mem = s.mem := rfl
@[simp] theorem State.afterOperandFetch_halted (s : State) : (s.afterOperandFetch).halted = s.halted := rfl
@[simp] theorem State.afterOperandFetch_t (s : State) : (s.afterOperandFetch).t = s.t := rfl
@[simp] theorem State.afterOperandFetch_dec (s : State) : (s.afterOperandFetch).dec = s.dec := rfl
@[simp] theorem State.afterOperandFetch_fault (s : State) : (s.afterOperandFetch).fault = s.fault := rfl
@[simp] theorem State.afterOperandFetch_out (s : State) : (s.afterOperandFetch).out = s.out := rfl
@[simp] theorem State.afterOperandFetch_reports (s : State) : (s.afterOperandFetch).reports = s.reports := rfl

/-! LDA's operation. -/

@[simp] theorem loadA_a (v : Byte) (s : State) : (loadA v s).a = v := rfl
@[simp] theorem loadA_b (v : Byte) (s : State) : (loadA v s).b = s.b := rfl
@[simp] theorem loadA_mar (v : Byte) (s : State) : (loadA v s).mar = s.mar := rfl
@[simp] theorem loadA_i (v : Byte) (s : State) : (loadA v s).i = s.i := rfl
@[simp] theorem loadA_pc (v : Byte) (s : State) : (loadA v s).pc = s.pc := rfl
@[simp] theorem loadA_o (v : Byte) (s : State) : (loadA v s).o = s.o := rfl
@[simp] theorem loadA_mem (v : Byte) (s : State) : (loadA v s).mem = s.mem := rfl
@[simp] theorem loadA_halted (v : Byte) (s : State) : (loadA v s).halted = s.halted := rfl
@[simp] theorem loadA_t (v : Byte) (s : State) : (loadA v s).t = s.t := rfl
@[simp] theorem loadA_dec (v : Byte) (s : State) : (loadA v s).dec = s.dec := rfl
@[simp] theorem loadA_fault (v : Byte) (s : State) : (loadA v s).fault = s.fault := rfl
@[simp] theorem loadA_out (v : Byte) (s : State) : (loadA v s).out = s.out := rfl
@[simp] theorem loadA_reports (v : Byte) (s : State) : (loadA v s).reports = s.reports := rfl

/-! ADD's operation. -/

@[simp] theorem addToA_a (v : Byte) (s : State) : (addToA v s).a = alu s.a v false := rfl
@[simp] theorem addToA_b (v : Byte) (s : State) : (addToA v s).b = v := rfl
@[simp] theorem addToA_mar (v : Byte) (s : State) : (addToA v s).mar = s.mar := rfl
@[simp] theorem addToA_i (v : Byte) (s : State) : (addToA v s).i = s.i := rfl
@[simp] theorem addToA_pc (v : Byte) (s : State) : (addToA v s).pc = s.pc := rfl
@[simp] theorem addToA_o (v : Byte) (s : State) : (addToA v s).o = s.o := rfl
@[simp] theorem addToA_mem (v : Byte) (s : State) : (addToA v s).mem = s.mem := rfl
@[simp] theorem addToA_halted (v : Byte) (s : State) : (addToA v s).halted = s.halted := rfl
@[simp] theorem addToA_t (v : Byte) (s : State) : (addToA v s).t = s.t := rfl
@[simp] theorem addToA_dec (v : Byte) (s : State) : (addToA v s).dec = s.dec := rfl
@[simp] theorem addToA_fault (v : Byte) (s : State) : (addToA v s).fault = s.fault := rfl
@[simp] theorem addToA_out (v : Byte) (s : State) : (addToA v s).out = s.out := rfl
@[simp] theorem addToA_reports (v : Byte) (s : State) : (addToA v s).reports = s.reports := rfl

/-! SUB's operation. -/

@[simp] theorem subFromA_a (v : Byte) (s : State) : (subFromA v s).a = alu s.a v true := rfl
@[simp] theorem subFromA_b (v : Byte) (s : State) : (subFromA v s).b = v := rfl
@[simp] theorem subFromA_mar (v : Byte) (s : State) : (subFromA v s).mar = s.mar := rfl
@[simp] theorem subFromA_i (v : Byte) (s : State) : (subFromA v s).i = s.i := rfl
@[simp] theorem subFromA_pc (v : Byte) (s : State) : (subFromA v s).pc = s.pc := rfl
@[simp] theorem subFromA_o (v : Byte) (s : State) : (subFromA v s).o = s.o := rfl
@[simp] theorem subFromA_mem (v : Byte) (s : State) : (subFromA v s).mem = s.mem := rfl
@[simp] theorem subFromA_halted (v : Byte) (s : State) : (subFromA v s).halted = s.halted := rfl
@[simp] theorem subFromA_t (v : Byte) (s : State) : (subFromA v s).t = s.t := rfl
@[simp] theorem subFromA_dec (v : Byte) (s : State) : (subFromA v s).dec = s.dec := rfl
@[simp] theorem subFromA_fault (v : Byte) (s : State) : (subFromA v s).fault = s.fault := rfl
@[simp] theorem subFromA_out (v : Byte) (s : State) : (subFromA v s).out = s.out := rfl
@[simp] theorem subFromA_reports (v : Byte) (s : State) : (subFromA v s).reports = s.reports := rfl

/-! JMP's operation. -/

@[simp] theorem jumpTo_a (v : Byte) (s : State) : (jumpTo v s).a = s.a := rfl
@[simp] theorem jumpTo_b (v : Byte) (s : State) : (jumpTo v s).b = s.b := rfl
@[simp] theorem jumpTo_mar (v : Byte) (s : State) : (jumpTo v s).mar = s.mar := rfl
@[simp] theorem jumpTo_i (v : Byte) (s : State) : (jumpTo v s).i = s.i := rfl
@[simp] theorem jumpTo_pc (v : Byte) (s : State) : (jumpTo v s).pc = v := rfl
@[simp] theorem jumpTo_o (v : Byte) (s : State) : (jumpTo v s).o = s.o := rfl
@[simp] theorem jumpTo_mem (v : Byte) (s : State) : (jumpTo v s).mem = s.mem := rfl
@[simp] theorem jumpTo_halted (v : Byte) (s : State) : (jumpTo v s).halted = s.halted := rfl
@[simp] theorem jumpTo_t (v : Byte) (s : State) : (jumpTo v s).t = s.t := rfl
@[simp] theorem jumpTo_dec (v : Byte) (s : State) : (jumpTo v s).dec = s.dec := rfl
@[simp] theorem jumpTo_fault (v : Byte) (s : State) : (jumpTo v s).fault = s.fault := rfl
@[simp] theorem jumpTo_out (v : Byte) (s : State) : (jumpTo v s).out = s.out := rfl
@[simp] theorem jumpTo_reports (v : Byte) (s : State) : (jumpTo v s).reports = s.reports := rfl

/-! OUT's operation. -/

@[simp] theorem outputA_a (s : State) : (outputA s).a = s.a := rfl
@[simp] theorem outputA_b (s : State) : (outputA s).b = s.b := rfl
@[simp] theorem outputA_mar (s : State) : (outputA s).mar = s.mar := rfl
@[simp] theorem outputA_i (s : State) : (outputA s).i = s.i := rfl
@[simp] theorem outputA_pc (s : State) : (outputA s).pc = s.pc := rfl
@[simp] theorem outputA_o (s : State) : (outputA s).o = s.a := rfl
@[simp] theorem outputA_mem (s : State) : (outputA s).mem = s.mem := rfl
@[simp] theorem outputA_halted (s : State) : (outputA s).halted = s.halted := rfl
@[simp] theorem outputA_t (s : State) : (outputA s).t = s.t := rfl
@[simp] theorem outputA_dec (s : State) : (outputA s).dec = s.dec := rfl
@[simp] theorem outputA_fault (s : State) : (outputA s).fault = s.fault := rfl
@[simp] theorem outputA_out (s : State) : (outputA s).out = s.out ++ [s.a] := rfl
@[simp] theorem outputA_reports (s : State) : (outputA s).reports = s.reports := rfl

/-! The clock edge of a T-state. -/

@[simp] theorem clock_a (cw : ControlWord) (bus : Option Byte) (s : State) : (clock cw bus s).a = latch cw.latchA bus s.a := rfl
@[simp] theorem clock_b (cw : ControlWord) (bus : Option Byte) (s : State) : (clock cw bus s).b = latch cw.latchB bus s.b := rfl
@[simp] theorem clock_mar (cw : ControlWord) (bus : Option Byte) (s : State) : (clock cw bus s).mar = latch cw.latchMar bus s.mar := rfl
@[simp] theorem clock_i (cw : ControlWord) (bus : Option Byte) (s : State) : (clock cw bus s).i = latch cw.latchI bus s.i := rfl
@[simp] theorem clock_pc (cw : ControlWord) (bus : Option Byte) (s : State) : (clock cw bus s).pc = nextPc cw bus s.pc := rfl
@[simp] theorem clock_o (cw : ControlWord) (bus : Option Byte) (s : State) : (clock cw bus s).o = latch cw.latchO bus s.o := rfl
@[simp] theorem clock_mem (cw : ControlWord) (bus : Option Byte) (s : State) : (clock cw bus s).mem = latchMemory cw.latchMem bus s := rfl
@[simp] theorem clock_halted (cw : ControlWord) (bus : Option Byte) (s : State) : (clock cw bus s).halted = (s.halted || cw.halt) := rfl
@[simp] theorem clock_t (cw : ControlWord) (bus : Option Byte) (s : State) : (clock cw bus s).t = s.t := rfl
@[simp] theorem clock_dec (cw : ControlWord) (bus : Option Byte) (s : State) : (clock cw bus s).dec = s.dec := rfl
@[simp] theorem clock_fault (cw : ControlWord) (bus : Option Byte) (s : State) : (clock cw bus s).fault = s.fault := rfl
@[simp] theorem clock_out (cw : ControlWord) (bus : Option Byte) (s : State) : (clock cw bus s).out = s.out ++ emitted cw.latchO bus := rfl
@[simp] theorem clock_reports (cw : ControlWord) (bus : Option Byte) (s : State) : (clock cw bus s).reports = s.reports := rfl

/-! Placing an instruction word writes memory only. -/

@[simp] theorem State.withFetchWord_a (s : State) (nbits w : Nat) : (s.withFetchWord nbits w).a = s.a := rfl
@[simp] theorem State.withFetchWord_b (s : State) (nbits w : Nat) : (s.withFetchWord nbits w).b = s.b := rfl
@[simp] theorem State.withFetchWord_mar (s : State) (nbits w : Nat) : (s.withFetchWord nbits w).mar = s.mar := rfl
@[simp] theorem State.withFetchWord_i (s : State) (nbits w : Nat) : (s.withFetchWord nbits w).i = s.i := rfl
@[simp] theorem State.withFetchWord_pc (s : State) (nbits w : Nat) : (s.withFetchWord nbits w).pc = s.pc := rfl
@[simp] theorem State.withFetchWord_o (s : State) (nbits w : Nat) : (s.withFetchWord nbits w).o = s.o := rfl
@[simp] theorem State.withFetchWord_halted (s : State) (nbits w : Nat) : (s.withFetchWord nbits w).halted = s.halted := rfl
@[simp] theorem State.withFetchWord_t (s : State) (nbits w : Nat) : (s.withFetchWord nbits w).t = s.t := rfl
@[simp] theorem State.withFetchWord_dec (s : State) (nbits w : Nat) : (s.withFetchWord nbits w).dec = s.dec := rfl
@[simp] theorem State.withFetchWord_fault (s : State) (nbits w : Nat) : (s.withFetchWord nbits w).fault = s.fault := rfl
@[simp] theorem State.withFetchWord_out (s : State) (nbits w : Nat) : (s.withFetchWord nbits w).out = s.out := rfl
@[simp] theorem State.withFetchWord_reports (s : State) (nbits w : Nat) : (s.withFetchWord nbits w).reports = s.reports := rfl

end Sys2Proof.Machine
end

