-- ==== Sys2Proof/Laws/Ops.lean ====
section
/-! SUPPORT. One lemma for each shared operation of the meanings and of the T-state that says everything it can do. -/

namespace Sys2Proof.Machine

/-- The increment faults exactly at 0xFF under `PC_OVERFLOW = fault` (R91). -/
theorem pcIncFaults_iff {c : Config} {p : Byte} : pcIncFaults c p = true ↔ p = 0xFF ∧ c.pcOverflow = .fault := by
  simp [pcIncFaults]

theorem pcIncFaults_eq_false_of_ne (c : Config) {p : Byte} (h : p ≠ 0xFF) : pcIncFaults c p = false := by
  unfold pcIncFaults
  rw [decide_eq_false h, Bool.false_and]

theorem pcIncFaults_eq_false_of_wrap {c : Config} (h : c.pcOverflow = .wrap) (p : Byte) : pcIncFaults c p = false := by
  simp [pcIncFaults, h]

/-- A fetch faults with nothing done, or the rest runs on the fetched state. -/
theorem withFetch_cases (c : Config) (op : Byte) (s : State) (rest : State → State) :
    (pcIncFaults c s.pc = true ∧ withFetch c op s rest = s.raise .pcOverflow) ∨
      (pcIncFaults c s.pc = false ∧ withFetch c op s rest = rest (s.afterFetch c op)) := by
  cases h : pcIncFaults c s.pc <;> simp [withFetch, h]

/-- An operand fetch faults with nothing done, or the rest runs with MAR and PC moved on. -/
theorem withOperandFetch_cases (c : Config) (s : State) (rest : State → State) :
    (pcIncFaults c s.pc = true ∧ withOperandFetch c s rest = s.raise .pcOverflow) ∨
      (pcIncFaults c s.pc = false ∧ withOperandFetch c s rest = rest s.afterOperandFetch) := by
  cases h : pcIncFaults c s.pc <;> simp [withOperandFetch, h]

/-- A 2-byte instruction faults in fetch T0, or in the operand fetch with the opcode's fetch done, or does its operation on
its datum (R113, R116). -/
theorem operandInstr_cases (c : Config) (mn : Mnemonic) (m : AddrMode) (v : Byte) (s : State)
    (operation : Byte → State → State) :
    (pcIncFaults c s.pc = true ∧ operandInstr c mn m v s operation = s.raise .pcOverflow) ∨
      (pcIncFaults c s.pc = false ∧ pcIncFaults c (inc s.pc) = true ∧
        operandInstr c mn m v s operation = (s.afterFetch c (opcodeByte mn m)).raise .pcOverflow) ∨
      (pcIncFaults c s.pc = false ∧ pcIncFaults c (inc s.pc) = false ∧
        operandInstr c mn m v s operation =
          (operation (datumOf c m v (s.afterFetch c (opcodeByte mn m)).afterOperandFetch).value
            { (s.afterFetch c (opcodeByte mn m)).afterOperandFetch with
              mar := (datumOf c m v (s.afterFetch c (opcodeByte mn m)).afterOperandFetch).address }).endInstr) := by
  cases h : pcIncFaults c s.pc <;> cases h' : pcIncFaults c (inc s.pc) <;>
    simp [operandInstr, withFetch, withOperandFetch, h, h']

/-- A T-state passes its checks exactly if none of the four conditions of R93 holds. -/
theorem tStateFault_eq_none {c : Config} {cw : ControlWord} {s : State} :
    tStateFault c cw s = none ↔
      (drivers cw s).length < 2 ∧ (cw.anyLatch && (busOf cw s).isNone) = false ∧ (cw.latchPc && cw.incPc) = false ∧
        (cw.incPc && !cw.halt && pcIncFaults c s.pc) = false := by
  unfold tStateFault
  split_ifs with h₁ h₂ h₃ h₄
  · exact ⟨fun h => (nomatch h), fun h => absurd h.1 (by omega)⟩
  · exact ⟨fun h => (nomatch h), fun h => absurd h.2.1 (by rw [h₂]; decide)⟩
  · exact ⟨fun h => (nomatch h), fun h => absurd h.2.2.1 (by rw [h₃]; decide)⟩
  · exact ⟨fun h => (nomatch h), fun h => absurd h.2.2.2 (by rw [h₄]; decide)⟩
  · exact ⟨fun _ => ⟨by omega, eq_false_of_ne_true h₂, eq_false_of_ne_true h₃, eq_false_of_ne_true h₄⟩, fun _ => rfl⟩

/-- A T-state raises one of four faults and changes nothing else, or clocks every component and advances the sequencer
(R93, R96). -/
theorem tState_cases (c : Config) (cw : ControlWord) (s : State) :
    (∃ k, tStateFault c cw s = some k ∧ tState c cw s = s.raise k) ∨
      (tStateFault c cw s = none ∧ tState c cw s = advance c (clock cw (busOf cw s) s)) := by
  cases h : tStateFault c cw s <;> simp [tState, h]

/-- The four ways a T-state step can answer (R94 to R96). -/
theorem stepT_cases (c : Config) (s : State) :
    (∃ k, s.fault = some k ∧ stepT c s = .refused (.faulted k)) ∨
      (s.fault = none ∧ s.halted = true ∧ stepT c s = .next s) ∨
      (s.fault = none ∧ s.halted = false ∧ ∃ cw, currentWord s = some cw ∧ stepT c s = .next (tState c cw s)) ∨
      (s.fault = none ∧ s.halted = false ∧ currentWord s = none ∧ stepT c s = .refused .noControlWord) := by
  cases hf : s.fault with
  | some k => exact .inl ⟨k, rfl, by simp [stepT, hf]⟩
  | none =>
    cases hh : s.halted with
    | true => exact .inr (.inl ⟨rfl, rfl, by simp [stepT, hf, hh]⟩)
    | false =>
      cases hw : currentWord s with
      | some cw => exact .inr (.inr (.inl ⟨rfl, rfl, cw, rfl, by simp [stepT, hf, hh, hw]⟩))
      | none => exact .inr (.inr (.inr ⟨rfl, rfl, rfl, by simp [stepT, hf, hh, hw]⟩))

/-- The loop runs one T-state, and goes on only in the middle of an instruction and without a fault (R111). -/
theorem runTStates_succ {c : Config} {n : Nat} {s s' : State} (h : stepT c s = .next s') :
    runTStates c (n + 1) s =
      if s'.fault.isNone && decide (s'.t ≠ 0) then runTStates c n s' else .next s' := by
  simp [runTStates, h]

/-- The ways a step can answer. -/
theorem step_cases (s : State) :
    (∃ k, s.fault = some k ∧ step s = .refused (.faulted k)) ∨
      (s.fault = none ∧ s.halted = true ∧ step s = .next s) ∨
      (s.fault = none ∧ s.halted = false ∧ s.t = 0 ∧ (∃ i, instrAtPc s = .ok i ∧ step s = exec i s)) ∨
      (s.fault = none ∧ s.halted = false ∧ s.t = 0 ∧ (∃ e, instrAtPc s = .error e) ∧
        step s = execUnmapped (s.mem.read s.pc) s) ∨
      (s.fault = none ∧ s.halted = false ∧ s.t ≠ 0 ∧ step s = stepInstr Config.chip s) := by
  cases hf : s.fault with
  | some k => exact .inl ⟨k, rfl, by simp [step, hf]⟩
  | none =>
    cases hh : s.halted with
    | true => exact .inr (.inl ⟨rfl, rfl, by simp [step, hf, hh]⟩)
    | false =>
      by_cases ht : s.t = 0
      · cases hi : instrAtPc s with
        | ok i => exact .inr (.inr (.inl ⟨rfl, rfl, ht, i, rfl, by simp [step, stepAtBoundary, hf, hh, ht, hi]⟩))
        | error e =>
          exact .inr (.inr (.inr (.inl ⟨rfl, rfl, ht, ⟨e, rfl⟩, by simp [step, stepAtBoundary, hf, hh, ht, hi]⟩)))
      · exact .inr (.inr (.inr (.inr ⟨rfl, rfl, ht, by simp [step, hf, hh, ht]⟩)))

end Sys2Proof.Machine
end

