-- ==== Sys2Proof/Laws/PerInstr.lean ====
section
/-! SUPPORT. The family stated for every instruction, one lemma for each constructor: an instruction is well formed, its form
stands for it and for nothing else, and its encoding is as long as its opcode says (`30_encoding.md` R56, R61, R67). -/

namespace Sys2Proof.Laws.InstrForm

/-- Well formed, read back from its form, and 1 or 2 bytes long as its opcode says. -/
def Statement (i : Instr) : Prop :=
  i.wellFormed = true ∧ i.form.toInstr = some i ∧ (encode i).length = opcodeLength i.opcode

/-- A form with an operand byte in a mode its mnemonic declares is well formed. -/
theorem wellFormed_of_operand {mn : Mnemonic} {m : AddrMode} (v : Byte) (hm : mn.legalModes.contains m = true)
    (ht : m.takesOperand = true) : (Form.mk mn m (some v.toNat)).wellFormed = true := by
  simp only [Form.wellFormed, Form.modeLegal, Form.operandFits, Form.operandInRange, hm, ht, Option.isSome_some,
    Option.all_some, Bool.true_and, beq_self_eq_true, decide_eq_true_eq]
  exact v.isLt

/-- The three parts for an instruction with an operand byte, from its row of the opcode table. -/
theorem of_operand {i : Instr} {mn : Mnemonic} {m : AddrMode} {v : Byte} (hf : i.form = ⟨mn, m, some v.toNat⟩)
    (hm : mn.legalModes.contains m = true) (ht : m.takesOperand = true) (hr : instrOfRow mn m v = some i)
    (hl : opcodeLength (opcodeByte mn m) = 2) : Statement i := by
  have hw := wellFormed_of_operand v hm ht
  refine ⟨by rw [Instr.wellFormed, hf, hw], ?_, ?_⟩
  · rw [hf, Form.toInstr, if_pos hw]
    simpa using hr
  · rw [Instr.opcode, encode, hf]
    simpa using hl.symm

theorem ldaAbsolute (v : Byte) : Statement (.ldaAbsolute v) := of_operand rfl (by decide) rfl rfl (by decide)

theorem addAbsolute (v : Byte) : Statement (.addAbsolute v) := of_operand rfl (by decide) rfl rfl (by decide)

theorem subAbsolute (v : Byte) : Statement (.subAbsolute v) := of_operand rfl (by decide) rfl rfl (by decide)

theorem ldaIndirect (v : Byte) : Statement (.ldaIndirect v) := of_operand rfl (by decide) rfl rfl (by decide)

theorem addIndirect (v : Byte) : Statement (.addIndirect v) := of_operand rfl (by decide) rfl rfl (by decide)

theorem subIndirect (v : Byte) : Statement (.subIndirect v) := of_operand rfl (by decide) rfl rfl (by decide)

theorem ldaImmediate (v : Byte) : Statement (.ldaImmediate v) := of_operand rfl (by decide) rfl rfl (by decide)

theorem addImmediate (v : Byte) : Statement (.addImmediate v) := of_operand rfl (by decide) rfl rfl (by decide)

theorem subImmediate (v : Byte) : Statement (.subImmediate v) := of_operand rfl (by decide) rfl rfl (by decide)

theorem jmpAbsolute (v : Byte) : Statement (.jmpAbsolute v) := of_operand rfl (by decide) rfl rfl (by decide)

theorem jmpIndirect (v : Byte) : Statement (.jmpIndirect v) := of_operand rfl (by decide) rfl rfl (by decide)

theorem out : Statement .out := ⟨by decide, by decide, by decide⟩

theorem nop : Statement .nop := ⟨by decide, by decide, by decide⟩

theorem hlt : Statement .hlt := ⟨by decide, by decide, by decide⟩

end Sys2Proof.Laws.InstrForm
end

