-- ==== Sys2Proof/Laws/Sequencer.lean ====
section
/-! SUPPORT. What each named control word does in one T-state, before the sequencer advances: one lemma for each, which runs
of the microcode are built from. -/

namespace Sys2Proof.Machine

/-- A word whose checks pass clocks the components and advances the sequencer. -/
theorem tState_of_no_fault {c : Config} {cw : ControlWord} {s : State} (h : tStateFault c cw s = none) :
    tState c cw s = advance c (clock cw (busOf cw s) s) := by
  simp [tState, h]

/-- `FETCH0` (R98). -/
theorem tState_fetch0 (c : Config) (s : State) :
    tState c fetch0 s =
      if pcIncFaults c s.pc then s.raise .pcOverflow else advance c { s with mar := s.pc, pc := inc s.pc } := by
  cases h : pcIncFaults c s.pc <;>
    simp [tState, tStateFault, drivers, busOf, fetch0, ControlWord.anyLatch, clock, latch, latchMemory, emitted, nextPc, h]

/-- `OPFETCH` (R104). -/
theorem tState_opFetch (c : Config) (s : State) :
    tState c opFetch s =
      if pcIncFaults c s.pc then s.raise .pcOverflow else advance c { s with mar := s.pc, pc := inc s.pc } :=
  tState_fetch0 c s

/-- `FETCH1` (R99). -/
theorem tState_fetch1 (c : Config) (s : State) :
    tState c fetch1 s = advance c { s with i := s.mem.read s.mar } := by
  simp [tState, tStateFault, drivers, busOf, fetch1, ControlWord.anyLatch, clock, latch, latchMemory, emitted, nextPc]

/-- `MEM_TO_MAR` (R105, R106). -/
theorem tState_memToMar (c : Config) (s : State) :
    tState c memToMar s = advance c { s with mar := s.mem.read s.mar } := by
  simp [tState, tStateFault, drivers, busOf, memToMar, ControlWord.anyLatch, clock, latch, latchMemory, emitted, nextPc]

/-- `MEM_TO_A` (R109). -/
theorem tState_memToA (c : Config) (s : State) :
    tState c memToA s = advance c { s with a := s.mem.read s.mar } := by
  simp [tState, tStateFault, drivers, busOf, memToA, ControlWord.anyLatch, clock, latch, latchMemory, emitted, nextPc]

/-- `MEM_TO_B` (R109). -/
theorem tState_memToB (c : Config) (s : State) :
    tState c memToB s = advance c { s with b := s.mem.read s.mar } := by
  simp [tState, tStateFault, drivers, busOf, memToB, ControlWord.anyLatch, clock, latch, latchMemory, emitted, nextPc]

/-- `ALU_TO_A` (R109): the sum of A and B as they were. -/
theorem tState_aluToA (c : Config) (s : State) :
    tState c aluToA s = advance c { s with a := s.a + s.b } := by
  simp [tState, tStateFault, drivers, busOf, aluToA, ControlWord.anyLatch, clock, latch, latchMemory, emitted, nextPc, alu]

/-- `ALUSUB_TO_A` (R109): the difference of A and B as they were. -/
theorem tState_aluSubToA (c : Config) (s : State) :
    tState c aluSubToA s = advance c { s with a := s.a - s.b } := by
  simp [tState, tStateFault, drivers, busOf, aluSubToA, ControlWord.anyLatch, clock, latch, latchMemory, emitted, nextPc,
    alu]

/-- `A_TO_O` (R109), with its output event (R87). -/
theorem tState_aToO (c : Config) (s : State) :
    tState c aToO s = advance c { s with o := s.a, out := s.out ++ [s.a] } := by
  simp [tState, tStateFault, drivers, busOf, aToO, ControlWord.anyLatch, clock, latch, latchMemory, emitted, nextPc]

/-- `MEM_TO_PC` (R109). -/
theorem tState_memToPc (c : Config) (s : State) :
    tState c memToPc s = advance c { s with pc := s.mem.read s.mar } := by
  simp [tState, tStateFault, drivers, busOf, memToPc, ControlWord.anyLatch, clock, latch, latchMemory, emitted, nextPc]

/-- `HALTW` (R92, R109): PC is frozen. -/
theorem tState_haltW (c : Config) (s : State) : tState c haltW s = advance c { s with halted := true } := by
  simp [tState, tStateFault, drivers, busOf, haltW, ControlWord.anyLatch, clock, latch, latchMemory, emitted, nextPc]

/-- A running machine's T-state under its current control word. -/
theorem stepT_running {c : Config} {s : State} {cw : ControlWord} (hf : s.fault = none) (hh : s.halted = false)
    (hw : currentWord s = some cw) : stepT c s = .next (tState c cw s) := by
  simp [stepT, hf, hh, hw]

/-- The sequencer changes only the index, `dec` and the reports (R100, R101). -/
theorem advance_frame (c : Config) (s : State) :
    (advance c s).a = s.a ∧ (advance c s).b = s.b ∧ (advance c s).mar = s.mar ∧ (advance c s).i = s.i ∧
      (advance c s).pc = s.pc ∧ (advance c s).o = s.o ∧ (advance c s).mem = s.mem ∧
      (advance c s).halted = s.halted ∧ (advance c s).fault = s.fault ∧ (advance c s).out = s.out := by
  unfold advance
  split <;> simp

/-- The three advances of the sequencer (R101). -/
theorem advance_zero (c : Config) {s : State} (h : s.t = 0) : advance c s = { s with t := 1 } := by
  simp [advance, h]

theorem advance_one (c : Config) {s : State} (h : s.t = 1) :
    advance c s =
      { s with
        dec := (dispatch c s.i).1
        t := if (dispatch c s.i).1.isEmpty then 0 else 2
        reports := if (dispatch c s.i).2 then s.reports ++ [s.i] else s.reports } := by
  simp [advance, h]

theorem advance_execute (c : Config) {s : State} {n : Nat} (h : s.t = n + 2) :
    advance c s = { s with t := if n + 1 = s.dec.length then 0 else n + 3 } := by
  simp [advance, h]

end Sys2Proof.Machine
end

