-- ==== Sys2Proof/Tests/Slice0.lean ====
section
/-! SUPPORT. The model's own tests: the checks of WellFormed, opcode bytes written out from `30_encoding.md`, vectors taken
from the spec's own vector file (`95_test_vectors.md`, named in each comment), and, for every statement that has
hypotheses, states and operands that meet them. -/

namespace Sys2Proof.Tests

open Sys2Proof Sys2Proof.Machine

/-! ## Helpers -/

/-- A machine at an instruction boundary with the given PC and memory, every other field as reset leaves it. -/
def tape (pc : Byte) (cells : Memory) : State := { State.reset with pc := pc, mem := cells }

/-- A machine whose current T-state runs one control word, as the component vectors have it. -/
def under (cw : ControlWord) : State := { State.reset with t := 2, dec := [cw] }

/-- A part of the next state, if there is one. -/
def see {α : Type} (o : Host.Outcome State Fault Refusal) (f : State → α) : Option α :=
  match o with
  | .next s => some (f s)
  | .fault _ | .refused _ => none

def wrapping : Config := { Config.reference with pcOverflow := .wrap }
def fetching : Config := { Config.reference with branchShape := .fetched }
def ignoring : Config := { Config.reference with undefOp := .nop }

/-! ## WellFormed: one ill-formed form for each check, refused -/

theorem test_form_mode_refused : (Form.mk .jmp .immediate (some 0x07)).modeLegal = false ∧
    (Form.mk .jmp .immediate (some 0x07)).wellFormed = false ∧ (Form.mk .jmp .immediate (some 0x07)).toInstr = none := by
  decide

theorem test_form_operand_on_implied_refused : (Form.mk .out .implied (some 5)).operandFits = false ∧
    (Form.mk .out .implied (some 5)).wellFormed = false ∧ (Form.mk .out .implied (some 5)).toInstr = none := by decide

theorem test_form_missing_operand_refused : (Form.mk .lda .absolute none).operandFits = false ∧
    (Form.mk .lda .absolute none).wellFormed = false ∧ (Form.mk .lda .absolute none).toInstr = none := by decide

theorem test_form_operand_above_byte_refused : (Form.mk .lda .absolute (some 0x100)).operandInRange = false ∧
    (Form.mk .lda .absolute (some 0x100)).wellFormed = false := by decide

theorem test_form_operand_at_bounds_accepted : (Form.mk .lda .absolute (some 0)).toInstr = some (.ldaAbsolute 0x00) ∧
    (Form.mk .lda .absolute (some 0xFF)).toInstr = some (.ldaAbsolute 0xFF) := by decide

/-! ## Decoding: each opcode byte written out from the two nibble tables and the opcode table (R57, R59 to R61) -/

theorem test_decode_lda_absolute : decode [0b0000_0000, 0xC2] = .ok (.ldaAbsolute 0xC2, []) := by rfl
theorem test_decode_add_absolute : decode [0b0000_0001, 0x0B] = .ok (.addAbsolute 0x0B, []) := by rfl
theorem test_decode_sub_absolute : decode [0b0000_0010, 0x0B] = .ok (.subAbsolute 0x0B, []) := by rfl
theorem test_decode_lda_indirect : decode [0b0001_0000, 0xC2] = .ok (.ldaIndirect 0xC2, []) := by rfl
theorem test_decode_add_indirect : decode [0b0001_0001, 0x08] = .ok (.addIndirect 0x08, []) := by rfl
theorem test_decode_sub_indirect : decode [0b0001_0010, 0x0B] = .ok (.subIndirect 0x0B, []) := by rfl
theorem test_decode_lda_immediate : decode [0b0010_0000, 0xC2] = .ok (.ldaImmediate 0xC2, []) := by rfl
theorem test_decode_add_immediate : decode [0b0010_0001, 0x01] = .ok (.addImmediate 0x01, []) := by rfl
theorem test_decode_sub_immediate : decode [0b0010_0010, 0x02] = .ok (.subImmediate 0x02, []) := by rfl
theorem test_decode_jmp_absolute : decode [0b0011_0011, 0x07] = .ok (.jmpAbsolute 0x07, []) := by rfl
theorem test_decode_jmp_indirect : decode [0b0100_0011, 0x07] = .ok (.jmpIndirect 0x07, []) := by rfl
theorem test_decode_out : decode [0b1111_1101, 0x07] = .ok (.out, [0x07]) := by rfl
theorem test_decode_nop : decode [0b1111_1110] = .ok (.nop, []) := by rfl
theorem test_decode_hlt : decode [0b1111_1111] = .ok (.hlt, []) := by rfl

/-- Two legal nibbles that no mnemonic declares together are unmapped (R65). -/
theorem test_decode_unmapped : decode [0x23, 0x44] = .error (.unmapped 0x23) ∧ decode [0x30] = .error (.unmapped 0x30) ∧
    decode [0xF0] = .error (.unmapped 0xF0) ∧ decode [0x05] = .error (.unmapped 0x05) := ⟨rfl, rfl, rfl, rfl⟩

theorem test_decode_too_short : decode [] = .error .noOpcode ∧ decode [0x20] = .error (.missingOperand 0x20) := ⟨rfl, rfl⟩

/-- Bit 0 of a table word is the lowest bit of the first byte: 0xC220 is the bytes 20 C2. -/
theorem test_table_word : decodeTableWord 16 0xC220 = some (.ldaImmediate 0xC2) ∧
    decodeTableWord 8 0x20 = some (.ldaImmediate 0x00) ∧ decodeTableWord 8 0xFF = some .hlt ∧
    decodeTableWord 8 0x05 = none := ⟨rfl, rfl, rfl, rfl⟩

/-- The very next step from reset runs the word placed. -/
theorem test_fetch_word : fetchBytes (State.reset.withFetchWord 16 0xC220) = [0x20, 0xC2] ∧
    see (step (State.reset.withFetchWord 16 0xC220)) State.a = some 0xC2 := by decide

/-! ## The arithmetic unit and one T-state: vectors 2.1 and 2.2 -/

theorem test_alu_wraps : alu 0xFF 0x01 false = 0x00 ∧ alu 0x00 0x01 true = 0xFF ∧ alu 0x80 0x80 false = 0x00 ∧
    alu 0x01 0xFF true = 0x02 := by decide

theorem test_B2_output : see (stepT .reference { under aToO with a := 0x5A }) (fun s => (s.o, s.out, s.t)) =
    some (0x5A, [0x5A], 0) := by decide

theorem test_B4_contention : see (stepT .reference
      { under { enableA := true, enablePc := true, latchB := true } with a := 0x07, pc := 0x07 })
    (fun s => (s.fault, s.b, s.t)) = some (some .busContention, 0x00, 2) := by decide

theorem test_B5_latch_without_data : see (stepT .reference { under { latchA := true } with a := 0x09 })
    (fun s => (s.fault, s.a)) = some (some .latchWithoutData, 0x09) := by decide

theorem test_B6_illegal : see (stepT .reference
      { under { enableA := true, latchPc := true, incPc := true } with a := 0x09 })
    (fun s => (s.fault, s.pc)) = some (some .illegalControlWord, 0x00) := by decide

theorem test_B7_alu_reads_old_b : see (stepT .reference
      { under { enableAlu := true, latchB := true } with a := 0x30, b := 0x12 }) State.b = some 0x42 := by decide

theorem test_B8_memory_takes_old_mar : see (stepT .reference
      { under { enableA := true, latchMem := true, latchMar := true } with a := 0x44, mar := 0x10 })
    (fun s => (s.mem, s.mar)) = some ([(0x10, 0x44)], 0x44) := by decide

theorem test_B10_halt_before_overflow : see (stepT .reference
      { under { halt := true, incPc := true } with pc := 0xFF })
    (fun s => (s.halted, s.pc, s.fault)) = some (true, 0xFF, none) := by decide

theorem test_B11_halt_before_latch_pc : see (stepT .reference
      { under { halt := true, enableA := true, latchPc := true } with a := 0x40, pc := 0x05 })
    (fun s => (s.halted, s.pc)) = some (true, 0x05) := by decide

theorem test_B12_overflow : see (stepT .reference { under { incPc := true } with pc := 0xFF })
      (fun s => (s.fault, s.pc)) = some (some .pcOverflow, 0xFF) ∧
    see (stepT wrapping { under { incPc := true } with pc := 0xFF }) (fun s => (s.fault, s.pc)) = some (none, 0x00) := by
  decide

theorem test_B14_enable_i : see (stepT .reference { under { enableI := true, latchA := true } with i := 0x77 })
    State.a = some 0x77 := by decide

/-! ## Instructions: vectors 2.3 to 2.7, one step each -/

theorem test_LA1_lda_immediate : see (step (tape 0x00 [(0, 0x20), (1, 0xC2)]))
    (fun s => (s.a, s.mar, s.pc)) = some (0xC2, 0x01, 0x02) := by decide

theorem test_LA1_lda_immediate_microcode : see (stepInstr .reference (tape 0x00 [(0, 0x20), (1, 0xC2)]))
    (fun s => (s.a, s.i, s.pc, s.dec)) = some (0xC2, 0x20, 0x02, [opFetch, memToA]) := by decide

theorem test_LA2_lda_absolute : see (step (tape 0x00 [(1, 0x05), (5, 0x7E)]))
    (fun s => (s.a, s.mar, s.i, s.pc)) = some (0x7E, 0x05, 0x00, 0x02) := by decide

theorem test_LA3_lda_indirect : see (step (tape 0x00 [(0, 0x10), (1, 0x05), (5, 0x09), (9, 0x3C)]))
    (fun s => (s.a, s.mar, s.i, s.pc)) = some (0x3C, 0x09, 0x10, 0x02) := by decide

theorem test_LA6_add_immediate : see (step { tape 0x02 [(2, 0x21), (3, 0x01)] with a := 0xFF })
    (fun s => (s.a, s.b, s.mar, s.pc)) = some (0x00, 0x01, 0x03, 0x04) := by decide

theorem test_LA7_add_absolute : see (step { tape 0x02 [(2, 0x01), (3, 0x08), (8, 0x12)] with a := 0x30 })
    (fun s => (s.a, s.b, s.mar, s.i, s.pc)) = some (0x42, 0x12, 0x08, 0x01, 0x04) := by decide

theorem test_LA8_add_indirect : see (step { tape 0x02 [(2, 0x11), (3, 0x08), (8, 0x0A), (10, 0x80)] with a := 0x80 })
    (fun s => (s.a, s.b, s.mar, s.i, s.pc)) = some (0x00, 0x80, 0x0A, 0x11, 0x04) := by decide

theorem test_LA9_sub_immediate : see (step (tape 0x00 [(0, 0x22), (1, 0x01)]))
    (fun s => (s.a, s.b, s.mar, s.pc)) = some (0xFF, 0x01, 0x01, 0x02) := by decide

theorem test_LA10_sub_absolute : see (step { tape 0x02 [(2, 0x02), (3, 0x06), (6, 0x11)] with a := 0x10 })
    (fun s => (s.a, s.b, s.mar, s.i, s.pc)) = some (0xFF, 0x11, 0x06, 0x02, 0x04) := by decide

theorem test_LA11_sub_indirect : see (step { tape 0x02 [(2, 0x12), (3, 0x06), (6, 0x07), (7, 0x05)] with a := 0x05 })
    (fun s => (s.a, s.b, s.mar, s.i, s.pc)) = some (0x00, 0x05, 0x07, 0x12, 0x04) := by decide

theorem test_CO1_CO2_jmp_absolute :
    ((jmp .reference .absoluteBranching 0x05 (tape 0x00 [(0, 0x33), (1, 0x05), (5, 0x09)])).pc,
      (jmp fetching .absoluteBranching 0x05 (tape 0x00 [(0, 0x33), (1, 0x05), (5, 0x09)])).pc) = (0x05, 0x09) := by
  decide

theorem test_CO1_CO2_jmp_absolute_microcode :
    see (stepInstr .reference (tape 0x00 [(0, 0x33), (1, 0x05), (5, 0x09)])) (fun s => (s.pc, s.mar, s.i)) =
      some (0x05, 0x01, 0x33) ∧
    see (stepInstr fetching (tape 0x00 [(0, 0x33), (1, 0x05), (5, 0x09)])) (fun s => (s.pc, s.mar)) =
      some (0x09, 0x05) := by decide

theorem test_CO3_CO4_jmp_indirect :
    ((jmp .reference .indirectBranching 0x05 (tape 0x00 [(0, 0x43), (1, 0x05), (5, 0x09), (9, 0x0C)])).pc,
      (jmp fetching .indirectBranching 0x05 (tape 0x00 [(0, 0x43), (1, 0x05), (5, 0x09), (9, 0x0C)])).pc) =
      (0x09, 0x0C) := by decide

theorem test_CO3_CO4_jmp_indirect_microcode :
    see (stepInstr .reference (tape 0x00 [(0, 0x43), (1, 0x05), (5, 0x09), (9, 0x0C)])) (fun s => (s.pc, s.mar)) =
      some (0x09, 0x05) ∧
    see (stepInstr fetching (tape 0x00 [(0, 0x43), (1, 0x05), (5, 0x09), (9, 0x0C)])) (fun s => (s.pc, s.mar)) =
      some (0x0C, 0x09) := by decide

/-- CO6: the same value twice is two events. -/
theorem test_CO6_out : see (step { tape 0x03 [(3, 0xFD)] with a := 0x2A, o := 0x2A, out := [0x2A] })
    (fun s => (s.o, s.out, s.pc)) = some (0x2A, [0x2A, 0x2A], 0x04) := by decide

theorem test_CO8_nop : see (step (tape 0x00 [(0, 0xFE)])) (fun s => (s.pc, s.mar, s.i, s.dec, s.t)) =
    some (0x01, 0x00, 0xFE, [], 0) := by decide

theorem test_CO9_hlt : see (step (tape 0x00 [(0, 0xFF)])) (fun s => (s.halted, s.pc, s.mar, s.i)) =
    some (true, 0x01, 0x00, 0xFF) := by decide

theorem test_CO10_unmapped_halts : see (stepInstr .reference (tape 0x00 [(0, 0x05), (1, 0xFF)]))
    (fun s => (s.halted, s.pc, s.mar, s.i, s.reports)) = some (true, 0x01, 0x00, 0x05, [0x05]) := by decide

theorem test_CO12_unmapped_goes_on : see (stepInstr ignoring (tape 0x00 [(0, 0x05), (1, 0xFF)]))
    (fun s => (s.halted, s.pc, s.i, s.reports)) = some (false, 0x01, 0x05, [0x05]) := by decide

theorem test_unmapped_meaning :
    ((unmappedInstr .reference 0x05 (tape 0x00 [(0, 0x05)])).halted,
      (unmappedInstr ignoring 0x05 (tape 0x00 [(0, 0x05)])).halted,
      (unmappedInstr ignoring 0x05 (tape 0x00 [(0, 0x05)])).reports) = (true, false, [0x05]) := by decide

theorem test_PO1_nop_at_the_top : see (stepInstr .reference (tape 0xFF [(0xFF, 0xFE)]))
      (fun s => (s.fault, s.pc, s.mar, s.t)) = some (some .pcOverflow, 0xFF, 0x00, 0) ∧
    see (stepInstr wrapping (tape 0xFF [(0xFF, 0xFE)])) (fun s => (s.fault, s.pc, s.mar, s.i)) =
      some (none, 0x00, 0xFF, 0xFE) := by decide

theorem test_PO2_operand_at_the_top : see (stepInstr .reference (tape 0xFE [(0xFE, 0x20), (0xFF, 0x99)]))
      (fun s => (s.fault, s.pc, s.mar, s.i, s.t, s.a)) = some (some .pcOverflow, 0xFF, 0xFE, 0x20, 2, 0x00) ∧
    see (stepInstr wrapping (tape 0xFE [(0xFE, 0x20), (0xFF, 0x99)])) (fun s => (s.a, s.mar, s.pc)) =
      some (0x99, 0xFF, 0x00) := by decide

theorem test_PO3_across_the_end : see (stepInstr wrapping (tape 0xFF [(0x00, 0x99), (0xFF, 0x20)]))
    (fun s => (s.a, s.mar, s.pc)) = some (0x99, 0x00, 0x01) := by decide

/-- The state S4 is left in by two T-states. -/
def midway : State :=
  { tape 0x01 [(1, 0x0A), (10, 0x1C)] with mar := 0x00, i := 0x00, t := 2, dec := [opFetch, memToMar, memToA] }

theorem test_S4_step_from_the_middle : see (step midway) (fun s => (s.a, s.pc, s.t)) = some (0x1C, 0x02, 0) := by decide

/-! ## Load, reset and bulk read: vectors 2.8 -/

theorem test_LR1_empty : loadProgram [] State.reset = State.reset := rfl

/-- The end of LR2 and LR3: the last byte, and the pair after it, which faults before its first pulse. -/
theorem test_LR3_too_long :
    ((loadFrom 255 [0xAB] State.reset).mem, (loadFrom 255 [0xAB] State.reset).mar,
      (loadFrom 255 [0xAB] State.reset).fault) = ([(255, 0xAB)], 0xFF, none) ∧
    ((loadFrom 255 [0xAB, 0xCD] State.reset).mem, (loadFrom 255 [0xAB, 0xCD] State.reset).mar,
      (loadFrom 255 [0xAB, 0xCD] State.reset).fault) = ([(255, 0xAB)], 0xFF, some .loadAddressOutOfRange) := by decide

theorem test_LR4_value : ((loadProgram [0x100] State.reset).fault, (loadProgram [0x100] State.reset).mem) =
    (some .loadValueOutOfRange, []) := by decide

theorem test_LR5_second_load : hostMove (.load [0x00]) { machine := tape 0x00 [], fresh := false } =
    .refused .loadNotAfterReset := rfl

theorem test_bulk_read_row_major : ((bulkRead (tape 0x00 [(0x23, 0x9C)]))[2]?.bind (fun row => row[3]?)) =
    some 0x9C := by decide

/-! ## Assembler: vectors 2.9 -/

theorem test_AS1_AS3_modes : assemble "LDA $C2".toList = .ok [0x00, 0xC2] ∧
    assemble "LDA #$C2".toList = .ok [0x20, 0xC2] ∧ assemble "LDA ($C2)".toList = .ok [0x10, 0xC2] := ⟨rfl, rfl, rfl⟩

theorem test_AS5_AS7 : assemble "JMP ($07)".toList = .ok [0x43, 0x07] ∧ assemble "HLT".toList = .ok [0xFF] ∧
    assemble "LDA $5".toList = .ok [0x00, 0x05] := ⟨rfl, rfl, rfl⟩

theorem test_AS8_AS9 : assemble "BYTE #C20A".toList = .ok [0xC2, 0x0A] ∧
    assemble "   LDA #$01   ; comment\n; only a comment".toList = .ok [0x20, 0x01] := ⟨rfl, rfl⟩

theorem test_AS10_AS15_errors : assemble "LDA $100".toList = .error (.valueAboveByte "$100".toList) ∧
    assemble "JMP #$07".toList = .error (.illegalOperand "#$07".toList) ∧
    assemble "OUT $05".toList = .error (.operandOnImplied "$05".toList) ∧
    assemble "LDA".toList = .error (.missingOperand "LDA".toList) ∧
    assemble "lda $05".toList = .error (.unknownMnemonic "lda".toList) ∧
    assemble "JMP nowhere".toList = .error (.undefinedLabel "nowhere".toList "nowhere".toList) := ⟨rfl, rfl, rfl, rfl, rfl, rfl⟩

theorem test_AS18_directives : assemble "BYTE #C2A".toList = .error (.badDirective "BYTE #C2A".toList) ∧
    assemble "  BYTE ; no data".toList = .error (.badDirective "BYTE".toList) ∧
    assemble "BYTE #".toList = .error (.badDirective "BYTE #".toList) := ⟨rfl, rfl, rfl⟩

/-- White space inside an operand does not change its bytes, and an error quotes it as written (R69, R77; log entry 17). -/
theorem test_inner_blanks : assemble "LDA ( $C2 )".toList = .ok [0x10, 0xC2] ∧
    assemble "LDA $1 00".toList = .error (.valueAboveByte "$1 00".toList) ∧
    assemble "JMP (no where) ; x".toList = .error (.undefinedLabel "nowhere".toList "(no where)".toList) ∧
    assemble "name :".toList = .error (.badLabel "name :".toList) := ⟨rfl, rfl, rfl, rfl⟩

theorem test_AS16_labels_are_tokens : assemble "a:\nNOP\nab:\nJMP ab".toList = .ok [0xFE, 0x33, 0x01] := rfl

/-- Program P5: a forward reference. -/
theorem test_P5_forward_reference : assemble "JMP (vec)\nHLT\nHLT\nvec:\nBYTE #05\nOUT\nHLT".toList =
    .ok [0x43, 0x04, 0xFF, 0xFF, 0x05, 0xFD, 0xFF] := rfl

/-! ## Witnesses: states and operands that meet every hypothesis of a statement, at the bounds of each clause -/

/-- Bytes beside each range of the opcode table are outside it. -/
theorem test_witness_OpcodeTableDecodes : ∀ op ∈ ([0x03, 0x0F, 0x13, 0x23, 0x32, 0x34, 0x42, 0x44, 0xFC] : List Byte),
    op ∉ ([0x00, 0x01, 0x02, 0x10, 0x11, 0x12, 0x20, 0x21, 0x22, 0x33, 0x43, 0xFD, 0xFE, 0xFF] : List Byte) := by decide

theorem test_witness_DecodeIsInverseOfEncode : decode [0x43, 0xFF, 0x01] = .ok (.jmpIndirect 0xFF, [0x01]) ∧
    [0x43, 0xFF, 0x01] = encode (.jmpIndirect 0xFF) ++ [0x01] := ⟨rfl, rfl⟩

theorem test_witness_NamedControlWordsBuildEveryMicroprogram : (tape 0x00 []).t = 0 ∧ (State.mk 0 0 0 0 0 0 [] false 1 [] none [] []).t = 1 ∧
    memToMar ∈ (dispatch .reference 0x10).1 ∧ haltW ∈ (dispatch .reference 0x05).1 := by decide

theorem test_witness_MicrocodeListing :
    (0x05 : Byte) ∉ ([0x00, 0x01, 0x02, 0x10, 0x11, 0x12, 0x20, 0x21, 0x22, 0x33, 0x43, 0xFD, 0xFE, 0xFF] : List Byte) := by
  decide

/-- The last address at which every instruction completes, and the longest and the shortest instruction. -/
theorem test_witness_InstructionTakesItsTStates :
    ((tape 0xFD [(0xFD, 0x12)]).atBoundary = true ∧ (0xFD : Byte) ≠ 0xFF ∧ (0xFD : Byte) ≠ 0xFE ∧
      6 < instrTStates .reference ((tape 0xFD [(0xFD, 0x12)]).mem.read 0xFD)) ∧
    ((tape 0x00 [(0, 0xFE)]).atBoundary = true ∧ 1 < instrTStates .reference ((tape 0x00 [(0, 0xFE)]).mem.read 0x00)) := by
  decide

theorem test_witness_ArithmeticUnitWraps : aluSubToA.enableAlu = true ∧
    (aluSubToA.enableA || aluSubToA.enableI || aluSubToA.enablePc || aluSubToA.enableMem) = false := by decide

theorem test_witness_BusCarriesTheOneProducer :
    Signal.enables.filter aToO.has = [.enableA] ∧ Signal.enables.filter ({ enableI := true } : ControlWord).has = [.enableI] ∧
    Signal.enables.filter fetch0.has = [.enablePc] ∧ Signal.enables.filter fetch1.has = [.enableMem] ∧
    Signal.enables.filter aluToA.has = [.enableAlu] ∧ Signal.enables.filter haltW.has = [] := by decide

/-- One state for each of the five clauses, each meeting no earlier condition. -/
theorem test_witness_FaultChecksInOrder :
    aluToA ∈ fetch0 :: fetch1 :: (dispatch .reference 0x01).1 ∧
    (let cw : ControlWord := { enableA := true, enableMem := true, latchB := true };
      (under cw).running = true ∧ currentWord (under cw) = some cw ∧ 2 ≤ (Signal.enables.filter cw.has).length) ∧
    (let cw : ControlWord := { latchA := true };
      (under cw).running = true ∧ currentWord (under cw) = some cw ∧ Signal.latches.any cw.has = true ∧
        Signal.enables.filter cw.has = []) ∧
    (let cw : ControlWord := { enableA := true, latchPc := true, incPc := true };
      (under cw).running = true ∧ currentWord (under cw) = some cw ∧ (Signal.enables.filter cw.has).length < 2 ∧
        cw.has .latchPc = true ∧ cw.has .incPc = true) ∧
    ((tape 0xFF []).running = true ∧ currentWord (tape 0xFF []) = some fetch0 ∧ fetch0.has .incPc = true ∧
      fetch0.has .halt = false ∧ (tape 0xFF []).pc = 0xFF ∧ Config.reference.pcOverflow = .fault) ∧
    ((tape 0xFE []).running = true ∧ currentWord (tape 0xFE []) = some fetch0 ∧ (tape 0xFE []).pc ≠ 0xFF) := by decide

theorem test_witness_LatchesTakeTheBus :
    (let cw : ControlWord := { enableA := true, latchMem := true, latchMar := true, latchB := true, latchI := true, latchO := true };
      let s := { under cw with a := 0x44, mar := 0xFF };
      s.running = true ∧ s.mem.wf = true ∧ currentWord s = some cw ∧ busOf cw s = some 0x44 ∧
        see (stepT .reference s) State.fault = some none) ∧
    (let s := { under memToA with mem := [(0, 0x9C)] };
      s.running = true ∧ s.mem.wf = true ∧ currentWord s = some memToA ∧ busOf memToA s = some 0x9C ∧
        see (stepT .reference s) State.fault = some none) := by decide

theorem test_witness_IdleBusLeavesRegisters :
    (under haltW).running = true ∧ currentWord (under haltW) = some haltW ∧ busOf haltW (under haltW) = none ∧
      see (stepT .reference (under haltW)) State.fault = some none := by decide

/-- The four cases of the priority, the increment also at 0xFE and, where PC wraps, at 0xFF. -/
theorem test_witness_PcUpdateByPriority :
    (let cw : ControlWord := { halt := true, incPc := true };
      let s := { under cw with pc := 0xFF };
      s.running = true ∧ currentWord s = some cw ∧ see (stepT .reference s) State.fault = some none) ∧
    ((under memToPc).running = true ∧ currentWord (under memToPc) = some memToPc ∧
      see (stepT .reference (under memToPc)) State.fault = some none) ∧
    ((tape 0xFE []).running = true ∧ currentWord (tape 0xFE []) = some fetch0 ∧
      see (stepT .reference (tape 0xFE [])) State.fault = some none ∧
      see (stepT wrapping (tape 0xFF [])) State.fault = some none) ∧
    ((under aToO).running = true ∧ currentWord (under aToO) = some aToO ∧
      see (stepT .reference (under aToO)) State.fault = some none) := by decide

theorem test_witness_HaltIsSticky :
    (let cw : ControlWord := { halt := true, enableA := true, latchPc := true };
      (under cw).running = true ∧ currentWord (under cw) = some cw ∧ see (stepT .reference (under cw)) State.fault = some none ∧
        cw.has .halt = true) ∧
    see (stepT .reference (under aToO)) State.fault = some none ∧ aToO.has .halt = false := by decide

theorem test_witness_FetchT0 : (tape 0x00 []).atBoundary = true ∧ (tape 0xFF []).atBoundary = true := by decide

/-- Fetch T1 at a mapped and at an unmapped opcode. -/
theorem test_witness_FetchT1Decodes :
    (let s := { tape 0x01 [(0, 0x20)] with t := 1 };
      s.running = true ∧ s.t = 1 ∧ opcodeFields (s.mem.read s.mar) = some (.lda, .immediate)) ∧
    (let s := { tape 0x01 [(0, 0x23)] with t := 1 };
      s.running = true ∧ s.t = 1 ∧ opcodeFields (s.mem.read s.mar) = none) := by decide

/-- An index of 0, of 1 before a NOP, and of the last and the first word of a microprogram. -/
theorem test_witness_SequencerAdvances :
    ((tape 0x00 []).running = true ∧ see (stepT .reference (tape 0x00 [])) State.fault = some none) ∧
    (let s := { tape 0x01 [(0, 0xFE)] with t := 1 };
      s.running = true ∧ see (stepT .reference s) State.fault = some none) ∧
    (let s := { tape 0x00 [] with t := 2, dec := [memToB, aluToA] };
      s.running = true ∧ see (stepT .reference s) State.fault = some none ∧ 2 ≤ s.t) ∧
    (let s := { tape 0x00 [] with t := 3, dec := [memToB, aluToA] };
      s.running = true ∧ see (stepT .reference s) State.fault = some none ∧ s.t - 1 = s.dec.length) := by decide

theorem test_witness_HaltedMachineNeverMoves : { tape 0x03 [] with halted := true }.final = true := by decide

theorem test_witness_FaultedMachineRefusesEveryStep :
    ((tape 0xFF []).raise .pcOverflow).fault = some .pcOverflow ∧
    (loadProgram [0x100] State.reset).fault = some .loadValueOutOfRange := by decide

theorem test_witness_StepRunsTheDecodedInstruction :
    ((tape 0xFD [(0xFD, 0x33), (0xFE, 0x07)]).atBoundary = true ∧
      decode [(tape 0xFD [(0xFD, 0x33), (0xFE, 0x07)]).mem.read 0xFD, (tape 0xFD [(0xFD, 0x33), (0xFE, 0x07)]).mem.read (0xFD + 1)] =
        .ok (.jmpAbsolute 0x07, [])) ∧
    ((tape 0xFF [(0, 0x99), (0xFF, 0x20)]).atBoundary = true ∧
      decode [(tape 0xFF [(0, 0x99), (0xFF, 0x20)]).mem.read 0xFF, (tape 0xFF [(0, 0x99), (0xFF, 0x20)]).mem.read (0xFF + 1)] =
        .ok (.ldaImmediate 0x99, [])) := ⟨⟨rfl, rfl⟩, rfl, rfl⟩

/-- A state in the middle of an instruction has the invariant, whatever the parameters. -/
theorem midway_inv (c : Config) : midway.Inv c :=
  { memory := by decide
    index := by decide
    short := by decide
    decoded := fun _ => ⟨rfl, by decide⟩
    haltAtBoundary := by decide
    haltedOrFaulted := by decide
    kinds := fun k h => by cases h }

theorem test_witness_InstructionStepReachesTheBoundary : midway.Inv Config.chip ∧ midway.running = true := ⟨midway_inv _, rfl⟩

theorem test_witness_MidInstructionStepFinishesIt : midway.Inv Config.reference ∧ midway.running = true ∧ 2 ≤ midway.t ∧
    ∃ s', stepInstr .reference midway = .next s' := ⟨midway_inv _, rfl, by decide, _, rfl⟩

/-- Both sides of the fault's condition, at 0xFF, at 0xFE for either length, and below. -/
theorem test_witness_PcOverflowIsTheOnlyFault :
    ((tape 0xFF []).atBoundary = true ∧ ∃ s', stepInstr .reference (tape 0xFF []) = .next s') ∧
    ((tape 0xFE []).atBoundary = true ∧ opcodeLength ((tape 0xFE []).mem.read 0xFE) = 2 ∧
      ∃ s', stepInstr .reference (tape 0xFE []) = .next s') ∧
    ((tape 0xFE [(0xFE, 0xFD)]).atBoundary = true ∧ opcodeLength ((tape 0xFE [(0xFE, 0xFD)]).mem.read 0xFE) = 1 ∧
      ∃ s', stepInstr .reference (tape 0xFE [(0xFE, 0xFD)]) = .next s') ∧
    ((tape 0xFF []).atBoundary = true ∧ ∃ s', stepInstr wrapping (tape 0xFF []) = .next s') :=
  ⟨⟨rfl, _, rfl⟩, ⟨rfl, rfl, _, rfl⟩, ⟨rfl, rfl, _, rfl⟩, rfl, _, rfl⟩

/-- The 2-byte instructions complete from reset's PC and from 0xFD, the highest address for every parameter: the hypotheses
of LdaCompletes, AddCompletes, SubCompletes and JmpCompletes. -/
theorem test_witness_two_byte_completes :
    (pcIncFaults Config.chip State.reset.pc = false ∧ pcIncFaults Config.chip (inc State.reset.pc) = false) ∧
    (pcIncFaults Config.chip (tape 0xFD []).pc = false ∧ pcIncFaults Config.chip (inc (tape 0xFD []).pc) = false) :=
  ⟨⟨rfl, rfl⟩, rfl, rfl⟩

/-- The 1-byte instructions complete from reset's PC and from 0xFE: the hypothesis of OutCompletes, NopCompletes and
HltCompletes. -/
theorem test_witness_one_byte_completes : pcIncFaults Config.chip State.reset.pc = false ∧
    pcIncFaults Config.chip (tape 0xFE []).pc = false ∧ (tape 0xFE []).fault = none := ⟨rfl, rfl, rfl⟩

theorem test_witness_ExecAtTopOfMemoryFaultsOrWraps : (tape 0xFF []).pc = 0xFF := rfl

theorem test_witness_OperandFetchFaultKeepsTheFetch : (tape 0xFE []).pc = 0xFE ∧ (encode (.subIndirect 0xFF)).length = 2 ∧
    (encode .out).length = 1 := ⟨rfl, rfl, rfl⟩

/-- A boundary state at each opcode: the hypotheses of the six ByMicrocode statements. -/
theorem test_witness_opcode_at_boundary :
    (∀ op ∈ ([0x20, 0x00, 0x10, 0x21, 0x01, 0x11, 0x22, 0x02, 0x12, 0x33, 0x43, 0xFD, 0xFE, 0xFF] : List Byte),
      (tape 0xFE (Memory.write [] 0xFE op)).atBoundary = true ∧ (tape 0xFE (Memory.write [] 0xFE op)).mem.read 0xFE = op) := by
  decide

/-- JmpByMicrocode's microprograms under either shape are what its hypothesis defines. -/
theorem test_witness_JmpByMicrocode : Config.reference.branchShape = .operand ∧ fetching.branchShape = .fetched := ⟨rfl, rfl⟩

theorem test_witness_OutNopHltByMicrocode : (hltInstr .reference (tape 0x00 [(0, 0xFF)])).fault = none := rfl

theorem test_witness_UnmappedByMicrocode :
    (tape 0x00 [(0, 0x05)]).atBoundary = true ∧ opcodeFields ((tape 0x00 [(0, 0x05)]).mem.read 0x00) = none ∧
    ignoring.undefOp = .nop ∧ Config.reference.undefOp = .halt ∧ pcIncFaults .reference (tape 0x00 [(0, 0x05)]).pc = false := by
  decide

/-- For EachRegisterHasItsWriters and ExecLeavesEveryMemoryByte: a next state of an instruction of every group. -/
theorem test_witness_exec_answers :
    (∃ t, exec (.jmpIndirect 0xFF) (tape 0x00 []) = .next t) ∧ (∃ t, exec (.ldaAbsolute 0x00) (tape 0x00 []) = .next t) ∧
    (∃ t, exec .out (tape 0xFF []) = .next t) ∧
    Instr.out.form.mnemonic ∉ [Mnemonic.lda, .add, .sub] ∧ (Instr.ldaAbsolute 0x00).form.mnemonic ∉ [Mnemonic.add, .sub] ∧
    (Instr.jmpIndirect 0xFF).form.mnemonic ≠ .out ∧ Instr.out.form.mnemonic ≠ .hlt :=
  ⟨⟨_, rfl⟩, ⟨_, rfl⟩, ⟨_, rfl⟩, by decide, by decide, by decide, by decide⟩

theorem test_witness_NoStepWritesMemory : midway.Inv .reference ∧ (∃ s', stepT .reference midway = .next s') ∧
    ∃ s', stepInstr .reference midway = .next s' := ⟨midway_inv _, ⟨_, rfl⟩, _, rfl⟩

/-- For EventsOfAStep and BNeverLeaksIntoTheRest: a step at an OUT, at an unmapped opcode and at the top of memory. -/
theorem test_witness_step_at_boundary :
    ((tape 0xFE [(0xFE, 0xFD)]).atBoundary = true ∧ ∃ s', step (tape 0xFE [(0xFE, 0xFD)]) = .next s') ∧
    ((tape 0x00 [(0, 0x23)]).atBoundary = true ∧ ∃ s', step (tape 0x00 [(0, 0x23)]) = .next s') ∧
    ((tape 0xFF []).atBoundary = true ∧ ∃ s', step (tape 0xFF []) = .next s') :=
  ⟨⟨rfl, _, rfl⟩, ⟨rfl, _, rfl⟩, rfl, _, rfl⟩

theorem test_witness_StepKeepsTheInvariant : midway.Inv Config.chip ∧ ∃ s', step midway = .next s' := ⟨midway_inv _, _, rfl⟩

theorem test_witness_TStateKeepsTheInvariant : midway.Inv .reference ∧ midway.running = true ∧
    ∃ s', stepT .reference midway = .next s' := ⟨midway_inv _, rfl, _, rfl⟩

/-- Every move is answered in the middle of an instruction but a load, which is answered right after a reset. -/
theorem test_witness_EveryHostMoveKeepsTheInvariant :
    (midway.Inv Config.chip ∧ ∀ move ∈ [HostMove.reset, .stepT, .stepInstr, .bulkRead],
      ∃ answer, hostMove move { machine := midway, fresh := false } = .next answer) ∧
    ∃ answer, hostMove (.load [0xFF]) { machine := State.reset, fresh := true } = .next answer := by
  refine ⟨⟨midway_inv _, fun move h => ?_⟩, _, rfl⟩
  fin_cases h <;> exact ⟨_, rfl⟩

/-- Programs for the three clauses: empty and of 256 bytes; of 257 bytes; with a value that is no byte at either end. -/
theorem test_witness_LoadPlacesTheProgram :
    ((([] : List Int).length ≤ 256 ∧ ∀ v ∈ ([] : List Int), 0 ≤ v ∧ v < 256) ∧
      ((List.replicate 256 (255 : Int)).length ≤ 256 ∧ ∀ v ∈ List.replicate 256 (255 : Int), 0 ≤ v ∧ v < 256)) ∧
    (256 < (List.replicate 257 (0 : Int)).length ∧ ∀ v ∈ (List.replicate 257 (0 : Int)).take 256, 0 ≤ v ∧ v < 256) ∧
    ((0 < 256 ∧ ([256] : List Int)[0]? = some 256 ∧ ¬((0 : Int) ≤ 256 ∧ (256 : Int) < 256)) ∧
      (255 < 256 ∧ (List.replicate 255 (7 : Int) ++ [-1])[255]? = some (-1) ∧ ¬((0 : Int) ≤ -1 ∧ (-1 : Int) < 256) ∧
        ∀ v ∈ (List.replicate 255 (7 : Int) ++ [-1]).take 255, 0 ≤ v ∧ v < 256)) := by
  refine ⟨⟨⟨by decide, by decide⟩, by rw [List.length_replicate], fun v h => ?_⟩,
    ⟨by rw [List.length_replicate]; decide, fun v h => ?_⟩, by decide, by decide, rfl, by decide, fun v h => ?_⟩
  · rw [List.eq_of_mem_replicate h]; decide
  · rw [List.take_replicate] at h
    rw [List.eq_of_mem_replicate h]; decide
  · rw [List.take_append_of_le_length (by rw [List.length_replicate]), List.take_replicate] at h
    rw [List.eq_of_mem_replicate h]; decide

theorem test_witness_LoadOnlyRightAfterReset :
    (Session.mk midway false).fresh = false ∧ (Session.mk State.reset true).fresh = true ∧
    ∃ answer, hostMove .bulkRead (Session.mk State.reset true) = .next answer := ⟨rfl, rfl, _, rfl⟩

theorem test_witness_BulkReadIsTheMemory : 15 < 16 ∧ (16 * 15 + 15 : Nat) = 0xFF := by decide

/-- A label after a forward reference and a `BYTE` line. -/
theorem test_witness_LabelAddressesAreExact :
    let before : List SourceLine := [.code .jmp (some "(vec)".toList), .bytes [0xFF, 0xFF]]
    let after : List SourceLine := [.bytes [0x05]]
    let symbols : SymbolTable := [("vec".toList, 4)]
    collectLabels (before ++ .label "vec".toList :: after) 0 [] = .ok symbols ∧
      emitLines symbols before = .ok [0x43, 0x04, 0xFF, 0xFF] := ⟨rfl, rfl⟩

/-- An error of the first pass, of the second pass and of a line's shape. -/
theorem test_witness_AssemblyErrorsQuoteTheSource :
    assemble "NOP\nLDA $1 00".toList = .error (.valueAboveByte "$1 00".toList) ∧
    assemble "a:\nJMP b".toList = .error (.undefinedLabel "b".toList "b".toList) ∧
    assemble "a:\na:".toList = .error (.duplicateLabel "a".toList) := ⟨rfl, rfl, rfl⟩

end Sys2Proof.Tests
end

section
/-! The arithmetic unit and the bus it drives (`10_state.md` R25, `40_sequencer.md` R84). -/

namespace Sys2Proof.Machine

@[simp] theorem alu_false (a b : Byte) : alu a b false = a + b := rfl
@[simp] theorem alu_true (a b : Byte) : alu a b true = a - b := rfl

theorem alu_false_toNat (a b : Byte) : (alu a b false).toNat = (a.toNat + b.toNat) % 256 := by
  rw [alu_false, BitVec.toNat_add]

/-- `BitVec.toNat_sub` borrows 256 before it subtracts; the integer remainder is the same number. -/
theorem alu_true_toNat (a b : Byte) : ((alu a b true).toNat : Int) = ((a.toNat : Int) - b.toNat) % 256 := by
  rw [alu_true, BitVec.toNat_sub]
  have hb : b.toNat < 2 ^ 8 := b.isLt
  omega

/-- With ENABLE_ALU as the only enable signal the arithmetic unit is the one producer (R84). -/
theorem drivers_of_only_enableAlu {cw : ControlWord} (s : State) (halu : cw.enableAlu = true)
    (hothers : (cw.enableA || cw.enableI || cw.enablePc || cw.enableMem) = false) :
    drivers cw s = [alu s.a s.b cw.sub] := by
  simp only [Bool.or_eq_false_iff] at hothers
  obtain ⟨⟨⟨hA, hI⟩, hPc⟩, hMem⟩ := hothers
  simp [drivers, halu, hA, hI, hPc, hMem]

theorem busOf_of_drivers_eq_singleton {cw : ControlWord} {s : State} {v : Byte} (h : drivers cw s = [v]) :
    busOf cw s = some v := by
  rw [busOf, h, List.head?_cons]

/-- Settles O7: the two operations are those of `BitVec 8`, and a sole producer's byte is the byte on the bus. -/
theorem arithmeticUnitWraps : Obligations.ArithmeticUnitWraps :=
  ⟨fun a b => ⟨alu_false_toNat a b, alu_true_toNat a b⟩,
    fun _ s halu hothers => busOf_of_drivers_eq_singleton (drivers_of_only_enableAlu s halu hothers)⟩

end Sys2Proof.Machine
end

section
/-! The bulk read of the memory (`20_memory.md` R54): its shape and its entries, from the two nested maps that define it. -/

namespace Sys2Proof.Machine

theorem bulkRead_length (s : State) : (bulkRead s).length = 16 := by
  rw [bulkRead, List.length_map, List.length_range]

/-- Row r of the grid, as the bytes at the addresses from 16 r on. -/
theorem bulkRead_getElem? (s : State) {r : Nat} (hr : r < 16) :
    (bulkRead s)[r]? = some ((List.range 16).map (fun c => s.mem.read (BitVec.ofNat 8 (16 * r + c)))) := by
  rw [bulkRead, List.getElem?_map, List.getElem?_range hr, Option.map_some]

theorem bulkRead_row_length {s : State} {row : List Byte} (hrow : row ∈ bulkRead s) : row.length = 16 := by
  obtain ⟨r, -, rfl⟩ := List.mem_map.mp hrow
  rw [List.length_map, List.length_range]

theorem bulkRead_entry (s : State) {r c : Nat} (hr : r < 16) (hc : c < 16) :
    ((bulkRead s)[r]?.bind (fun row => row[c]?)) = some (s.mem.read (BitVec.ofNat 8 (16 * r + c))) := by
  rw [bulkRead_getElem? s hr, Option.bind_some, List.getElem?_map, List.getElem?_range hc, Option.map_some]

/-- The bulk read has one answer, in every machine mode: it looks at no field of the session before it replies. -/
theorem hostMove_bulkRead (session : Session) :
    hostMove .bulkRead session =
      .next { session := session, reply := .grid (bulkRead session.machine), events := [] } := rfl

/-- Settles O51: the move answers with the grid, and the grid's shape and entries are those of its two maps. -/
theorem bulkReadIsTheMemory : Obligations.BulkReadIsTheMemory :=
  fun session =>
    ⟨⟨_, hostMove_bulkRead session, rfl, rfl⟩, bulkRead_length session.machine,
      fun _ hrow => bulkRead_row_length hrow, fun _ _ hr hc => bulkRead_entry session.machine hr hc⟩

end Sys2Proof.Machine
end

section
/-! The decoder on a row of the opcode table and off the table (`30_encoding.md` R56, R61, R65). -/

namespace Sys2Proof.Machine

/-- Format O: the byte after the opcode is the operand, and no other byte is consumed (R56). -/
theorem decode_operandRow (mn : Mnemonic) (m : AddrMode) {v : Byte} {i : Instr} {rest : List Byte}
    (hlegal : m ∈ mn.legalModes) (hoperand : m.takesOperand = true) (hrow : instrOfRow mn m v = some i) :
    decode (opcodeByte mn m :: v :: rest) = .ok (i, rest) := by
  simp [decode, opcodeFields_opcodeByte hlegal, hoperand, hrow]

/-- Format I: the instruction is the opcode byte alone (R56). -/
theorem decode_impliedRow (mn : Mnemonic) (m : AddrMode) {i : Instr} {rest : List Byte}
    (hlegal : m ∈ mn.legalModes) (hoperand : m.takesOperand = false) (hrow : instrOfRow mn m 0 = some i) :
    decode (opcodeByte mn m :: rest) = .ok (i, rest) := by
  simp only [decode, opcodeFields_opcodeByte hlegal, hoperand, hrow, Bool.false_eq_true, if_false, Option.map_some,
    Option.elim_some]

theorem decode_of_opcodeFields_eq_none {op : Byte} (rest : List Byte) (h : opcodeFields op = none) :
    decode (op :: rest) = .error (.unmapped op) := by
  simp [decode, h]

/-- The pairs of R60 give no opcode beyond the 14 of R61. -/
theorem opcodeByte_mem_opcodes (mn : Mnemonic) : ∀ m ∈ mn.legalModes,
    opcodeByte mn m ∈ [0x00, 0x01, 0x02, 0x10, 0x11, 0x12, 0x20, 0x21, 0x22, 0x33, 0x43, 0xFD, 0xFE, 0xFF] := by
  cases mn <;> decide

/-- A byte with fields is the opcode byte of a legal row, so a byte outside the 14 has none. -/
theorem opcodeFields_eq_none_of_notMem {op : Byte}
    (h : op ∉ [0x00, 0x01, 0x02, 0x10, 0x11, 0x12, 0x20, 0x21, 0x22, 0x33, 0x43, 0xFD, 0xFE, 0xFF]) :
    opcodeFields op = none := by
  cases hfields : opcodeFields op with
  | none => rfl
  | some fields =>
    obtain ⟨hop, hlegal⟩ := opcodeFields_eq_some hfields
    exact absurd (hop ▸ opcodeByte_mem_opcodes fields.1 fields.2 hlegal) h

/-- Settles O1: the eleven rows of format O, the three of format I, and the bytes that no legal row has as its opcode. -/
theorem opcodeTableDecodes : Obligations.OpcodeTableDecodes := by
  refine ⟨fun v rest => ⟨?_, ?_, ?_, ?_, ?_, ?_, ?_, ?_, ?_, ?_, ?_⟩, fun rest => ⟨?_, ?_, ?_⟩,
    fun op rest h => decode_of_opcodeFields_eq_none rest (opcodeFields_eq_none_of_notMem h)⟩
  · exact decode_operandRow .lda .absolute (by decide) rfl rfl
  · exact decode_operandRow .add .absolute (by decide) rfl rfl
  · exact decode_operandRow .sub .absolute (by decide) rfl rfl
  · exact decode_operandRow .lda .indirect (by decide) rfl rfl
  · exact decode_operandRow .add .indirect (by decide) rfl rfl
  · exact decode_operandRow .sub .indirect (by decide) rfl rfl
  · exact decode_operandRow .lda .immediate (by decide) rfl rfl
  · exact decode_operandRow .add .immediate (by decide) rfl rfl
  · exact decode_operandRow .sub .immediate (by decide) rfl rfl
  · exact decode_operandRow .jmp .absoluteBranching (by decide) rfl rfl
  · exact decode_operandRow .jmp .indirectBranching (by decide) rfl rfl
  · exact decode_impliedRow .out .implied (by decide) rfl rfl
  · exact decode_impliedRow .nop .implied (by decide) rfl rfl
  · exact decode_impliedRow .hlt .implied (by decide) rfl rfl

end Sys2Proof.Machine
end

section
/-! The producers of a T-state (`40_sequencer.md` R84, R86): what is driven, from the enable signals of the control word. -/

namespace Sys2Proof.Machine

/-- The byte the component of an enable signal drives (R84); as in the statement, any other signal stands for the adder. -/
def drivenBy (cw : ControlWord) (s : State) : Signal → Byte
  | .enableA => s.a
  | .enableI => s.i
  | .enablePc => s.pc
  | .enableMem => s.mem.read s.mar
  | _ => alu s.a s.b cw.sub

theorem map_filter_cons {α β : Type} (f : α → β) (p : α → Bool) (x : α) (xs : List α) :
    ((x :: xs).filter p).map f = (if p x then [f x] else []) ++ (xs.filter p).map f := by
  cases hx : p x <;> simp [hx]

/-- The producers are the enable signals of the word, in the order of the table. -/
theorem drivers_eq_map_enables (cw : ControlWord) (s : State) :
    drivers cw s = (Signal.enables.filter cw.has).map (drivenBy cw s) := by
  simp only [Signal.enables, map_filter_cons, List.filter_nil, List.map_nil, List.append_nil, drivers, List.append_assoc]
  rfl

theorem drivers_length (cw : ControlWord) (s : State) :
    (drivers cw s).length = (Signal.enables.filter cw.has).length := by
  rw [drivers_eq_map_enables, List.length_map]

theorem busOf_of_enables_eq_singleton {cw : ControlWord} (s : State) {signal : Signal}
    (h : Signal.enables.filter cw.has = [signal]) : busOf cw s = some (drivenBy cw s signal) :=
  busOf_of_drivers_eq_singleton (by rw [drivers_eq_map_enables, h, List.map_singleton])

theorem busOf_eq_none_iff {cw : ControlWord} {s : State} :
    busOf cw s = none ↔ Signal.enables.filter cw.has = [] := by
  rw [busOf, List.head?_eq_none_iff, drivers_eq_map_enables, List.map_eq_nil_iff]

/-- Settles O8: the list of producers is the filtered table of enables, and the bus is its one byte or nothing. -/
theorem busCarriesTheOneProducer : Obligations.BusCarriesTheOneProducer := fun cw s =>
  ⟨drivers_eq_map_enables cw s, busOf_of_enables_eq_singleton s, busOf_of_enables_eq_singleton s,
    busOf_of_enables_eq_singleton s, busOf_of_enables_eq_singleton s, busOf_of_enables_eq_singleton s,
    busOf_eq_none_iff.mpr⟩

end Sys2Proof.Machine
end

section
/-! The control words a run meets (`40_sequencer.md` R83, R98, R99, R103 to R109). -/

namespace Sys2Proof.Machine

theorem currentWord_of_t_eq_zero {s : State} (h : s.t = 0) : currentWord s = some fetch0 := by
  simp [currentWord, h]

theorem currentWord_of_t_eq_one {s : State} (h : s.t = 1) : currentWord s = some fetch1 := by
  simp [currentWord, h]

/-- The named control words other than the two of the fetch (R83). -/
def executeWords : List ControlWord :=
  [opFetch, memToMar, memToA, memToB, aluToA, aluSubToA, aToO, memToPc, haltW]

theorem modeOps_subset_executeWords (c : Config) (m : AddrMode) : modeOps c m ⊆ executeWords := by
  cases m with
  | absoluteBranching => cases hb : c.branchShape <;> simp [modeOps, hb, executeWords]
  | indirectBranching => cases hb : c.branchShape <;> simp [modeOps, hb, executeWords]
  | absolute | indirect | immediate | implied => simp [modeOps, executeWords]

theorem opOps_subset_executeWords (mn : Mnemonic) : opOps mn ⊆ executeWords := by
  cases mn <;> simp [opOps, executeWords]

theorem defaultOps_subset_executeWords (c : Config) : defaultOps c ⊆ executeWords := by
  cases hu : c.undefOp <;> simp [defaultOps, hu, executeWords]

/-- A microprogram is a mode's list followed by a mnemonic's, or a default, and each of these uses the named words. -/
theorem dispatch_subset_executeWords (c : Config) (op : Byte) : (dispatch c op).1 ⊆ executeWords := by
  rcases dispatch_cases c op with ⟨mn, m, -, -, hrow⟩ | ⟨-, hdefault⟩
  · rw [hrow]
    exact List.append_subset.mpr ⟨modeOps_subset_executeWords c m, opOps_subset_executeWords mn⟩
  · rw [hdefault]
    exact defaultOps_subset_executeWords c

/-- Settles O4: the bits by evaluation, the words of the fetch by index, the others by the parts of a microprogram. -/
theorem namedControlWordsBuildEveryMicroprogram : Obligations.NamedControlWordsBuildEveryMicroprogram := by
  refine ⟨by decide, by decide, by decide, by decide, by decide, by decide, by decide, by decide, by decide, by decide,
    by decide, fun _ => ⟨currentWord_of_t_eq_zero, currentWord_of_t_eq_one⟩, fun c op _ hcw => ?_⟩
  exact dispatch_subset_executeWords c op hcw

end Sys2Proof.Machine
end

section
/-! The fatal conditions of a T-state (`40_sequencer.md` R86, R88, R90, R91, R93), in terms of the signals of the word. -/

namespace Sys2Proof.Machine

theorem running_iff {s : State} : s.running = true ↔ s.halted = false ∧ s.fault = none := by
  simp [State.running]

theorem stepT_of_running (c : Config) {s : State} {cw : ControlWord} (hrun : s.running = true)
    (hword : currentWord s = some cw) : stepT c s = .next (tState c cw s) := by
  obtain ⟨hhalted, hfault⟩ := running_iff.mp hrun
  exact stepT_running hfault hhalted hword

theorem anyLatch_eq_any_latches (cw : ControlWord) : cw.anyLatch = Signal.latches.any cw.has := by
  simp [ControlWord.anyLatch, Signal.latches, ControlWord.has, Bool.or_assoc]

/-- No word of R83 contends for the bus, latches an empty bus or both latches and increments PC. -/
theorem named_words_meet_no_early_condition : ∀ cw ∈ fetch0 :: fetch1 :: executeWords,
    (Signal.enables.filter cw.has).length ≤ 1 ∧
      (Signal.latches.any cw.has = true → (Signal.enables.filter cw.has).length = 1) ∧
      ¬(cw.has .latchPc = true ∧ cw.has .incPc = true) := by
  decide

theorem latchWithoutData_iff {cw : ControlWord} {s : State} :
    (cw.anyLatch && (busOf cw s).isNone) = true ↔
      Signal.latches.any cw.has = true ∧ Signal.enables.filter cw.has = [] := by
  rw [Bool.and_eq_true, Option.isNone_iff_eq_none, busOf_eq_none_iff, anyLatch_eq_any_latches]

theorem illegalControlWord_iff {cw : ControlWord} :
    (cw.latchPc && cw.incPc) = true ↔ cw.has .latchPc = true ∧ cw.has .incPc = true :=
  Bool.and_eq_true_iff

theorem pcOverflow_iff {c : Config} {cw : ControlWord} {s : State} :
    (cw.incPc && !cw.halt && pcIncFaults c s.pc) = true ↔
      cw.has .incPc = true ∧ cw.has .halt = false ∧ s.pc = 0xFF ∧ c.pcOverflow = .fault := by
  rw [Bool.and_eq_true, Bool.and_eq_true, pcIncFaults_iff, Bool.not_eq_true', and_assoc]
  rfl

/-- The checks of R93 over the sets of signals of the word. -/
theorem tStateFault_eq (c : Config) (cw : ControlWord) (s : State) :
    tStateFault c cw s =
      if 2 ≤ (Signal.enables.filter cw.has).length then some .busContention
      else if Signal.latches.any cw.has = true ∧ Signal.enables.filter cw.has = [] then some .latchWithoutData
      else if cw.has .latchPc = true ∧ cw.has .incPc = true then some .illegalControlWord
      else if cw.has .incPc = true ∧ cw.has .halt = false ∧ s.pc = 0xFF ∧ c.pcOverflow = .fault then some .pcOverflow
      else none := by
  simp only [tStateFault, drivers_length, latchWithoutData_iff, illegalControlWord_iff, pcOverflow_iff]

theorem stepT_of_fault {c : Config} {s : State} {cw : ControlWord} {k : Fault} (hrun : s.running = true)
    (hword : currentWord s = some cw) (hk : tStateFault c cw s = some k) :
    stepT c s = .next { s with fault := some k } := by
  rw [stepT_of_running c hrun hword, tState, hk]
  rfl

theorem advance_fault (c : Config) (s : State) : (advance c s).fault = s.fault := by
  obtain ⟨-, -, -, -, -, -, -, -, hfault, -⟩ := advance_frame c s
  exact hfault

theorem tState_fault_of_no_fault {c : Config} {cw : ControlWord} {s : State} (h : tStateFault c cw s = none) :
    (tState c cw s).fault = s.fault := by
  rw [tState_of_no_fault h, advance_fault, clock_fault]

/-- Settles O9: the words by a check of the named ones, the faults by the order of R93's checks. -/
theorem faultChecksInOrder : Obligations.FaultChecksInOrder := by
  refine ⟨fun c op cw hcw => named_words_meet_no_early_condition cw ?_, fun c s cw hrun hword => ?_⟩
  · exact List.cons_subset_cons _ (List.cons_subset_cons _ (dispatch_subset_executeWords c op)) hcw
  · have hchecks := tStateFault_eq c cw s
    split_ifs at hchecks ⊢
    · exact stepT_of_fault hrun hword hchecks
    · exact stepT_of_fault hrun hword hchecks
    · exact stepT_of_fault hrun hword hchecks
    · exact stepT_of_fault hrun hword hchecks
    · exact ⟨_, stepT_of_running c hrun hword, (tState_fault_of_no_fault hchecks).trans (running_iff.mp hrun).2⟩

end Sys2Proof.Machine
end

section
/-! A T-state without a fault: the latches, PC and the sequencer (`40_sequencer.md` R87, R89, R98 to R101). -/

namespace Sys2Proof.Machine

/-- A T-state step of a running machine that answers an unfaulted state passed every check, so it is the clock edge followed
by the sequencer's advance (R93, R96). -/
theorem stepT_completed {c : Config} {s s' : State} (hrun : s.running = true) (hstep : stepT c s = .next s')
    (hs' : s'.fault = none) :
    ∃ cw, currentWord s = some cw ∧ tStateFault c cw s = none ∧ s' = advance c (clock cw (busOf cw s) s) := by
  obtain ⟨hhalted, hfault⟩ := running_iff.mp hrun
  cases hword : currentWord s with
  | none => simp [stepT, hfault, hhalted, hword] at hstep
  | some cw =>
    rw [stepT_of_running c hrun hword] at hstep
    obtain rfl : tState c cw s = s' := Host.Outcome.next.inj hstep
    rcases tState_cases c cw s with ⟨k, -, hraise⟩ | ⟨hchecks, hadvance⟩
    · rw [hraise, State.raise_fault] at hs'
      exact nomatch hs'
    · exact ⟨cw, rfl, hchecks, hadvance⟩

/-- The same with the current word given. -/
theorem stepT_completed_under {c : Config} {s s' : State} {cw : ControlWord} (hrun : s.running = true)
    (hword : currentWord s = some cw) (hstep : stepT c s = .next s') (hs' : s'.fault = none) :
    tStateFault c cw s = none ∧ s' = advance c (clock cw (busOf cw s) s) := by
  obtain ⟨cw', hword', hrest⟩ := stepT_completed hrun hstep hs'
  obtain rfl : cw = cw' := Option.some.inj (hword.symm.trans hword')
  exact hrest

/-! The latches (R87). -/

theorem latch_some (signal : Bool) (v old : Byte) : latch signal (some v) old = if signal then v else old := by
  cases signal <;> rfl

theorem append_emitted_some (signal : Bool) (v : Byte) (events : List Byte) :
    events ++ emitted signal (some v) = if signal then events ++ [v] else events := by
  cases signal <;> simp [emitted]

theorem latchMemory_some_read {s : State} (hwf : s.mem.wf = true) (signal : Bool) (v a : Byte) :
    (latchMemory signal (some v) s).read a = if signal ∧ a = s.mar then v else s.mem.read a := by
  cases signal with
  | false => simp [latchMemory]
  | true =>
    by_cases ha : a = s.mar
    · simp [latchMemory, ha, Memory.read_write_same hwf]
    · simp [latchMemory, ha, Memory.read_write_other s.mem v ha]

/-- Settles O10: the sequencer's advance keeps every register, so each holds what the clock edge latched. -/
theorem latchesTakeTheBus : Obligations.LatchesTakeTheBus := by
  intro c s s' cw v hrun hwf hword hbus hstep hs'
  obtain ⟨-, rfl⟩ := stepT_completed_under hrun hword hstep hs'
  obtain ⟨ha, hb, hmar, hi, -, ho, hmem, -, -, hout⟩ := advance_frame c (clock cw (busOf cw s) s)
  rw [ha, hb, hmar, hi, ho, hmem, hout, hbus]
  exact ⟨latch_some _ _ _, latch_some _ _ _, latch_some _ _ _, latch_some _ _ _, latch_some _ _ _,
    append_emitted_some _ _ _, latchMemory_some_read hwf _ _⟩

/-! PC (R89). -/

theorem inc_toNat {p : Byte} (h : p ≠ 0xFF) : (inc p).toNat = p.toNat + 1 := by
  rw [inc]
  bv_omega

/-- Past the check of R91 the increment adds one below 0xFF, and at 0xFF PC wraps. -/
theorem inc_cases {c : Config} {p : Byte} (h : pcIncFaults c p = false) :
    (p ≠ 0xFF ∧ (inc p).toNat = p.toNat + 1) ∨ (p = 0xFF ∧ c.pcOverflow = .wrap ∧ inc p = 0x00) := by
  by_cases hp : p = 0xFF
  · subst hp
    cases hover : c.pcOverflow with
    | fault => exact absurd h (by simp [pcIncFaults_iff, hover])
    | wrap => exact .inr ⟨rfl, rfl, rfl⟩
  · exact .inl ⟨hp, inc_toNat hp⟩

theorem anyLatch_of_latchPc {cw : ControlWord} (h : cw.latchPc = true) : cw.anyLatch = true := by
  simp [ControlWord.anyLatch, h]

/-- Under LATCH_PC the check of R88 leaves a byte on the bus. -/
theorem busOf_isSome_of_latchPc {c : Config} {cw : ControlWord} {s : State} (hchecks : tStateFault c cw s = none)
    (hlatch : cw.latchPc = true) : ∃ v, busOf cw s = some v := by
  obtain ⟨-, hdata, -, -⟩ := tStateFault_eq_none.mp hchecks
  rw [anyLatch_of_latchPc hlatch, Bool.true_and, Option.isNone_eq_false_iff] at hdata
  exact Option.isSome_iff_exists.mp hdata

theorem pcIncFaults_eq_false_of_checks {c : Config} {cw : ControlWord} {s : State}
    (hchecks : tStateFault c cw s = none) (hinc : cw.incPc = true) (hhalt : cw.halt = false) :
    pcIncFaults c s.pc = false := by
  obtain ⟨-, -, -, hpc⟩ := tStateFault_eq_none.mp hchecks
  simpa [hinc, hhalt] using hpc

/-- R89 for the PC of the clock edge, when the checks of R93 have passed. -/
theorem nextPc_by_priority {c : Config} {cw : ControlWord} {s : State} (hchecks : tStateFault c cw s = none) :
    if cw.halt then nextPc cw (busOf cw s) s.pc = s.pc
    else if cw.latchPc then busOf cw s = some (nextPc cw (busOf cw s) s.pc)
    else if cw.incPc then
      (s.pc ≠ 0xFF ∧ (nextPc cw (busOf cw s) s.pc).toNat = s.pc.toNat + 1) ∨
        (s.pc = 0xFF ∧ c.pcOverflow = .wrap ∧ nextPc cw (busOf cw s) s.pc = 0x00)
    else nextPc cw (busOf cw s) s.pc = s.pc := by
  unfold nextPc
  split_ifs with hhalt hlatch hinc
  · rfl
  · obtain ⟨v, hv⟩ := busOf_isSome_of_latchPc hchecks hlatch
    rw [hv]
    rfl
  · exact inc_cases (pcIncFaults_eq_false_of_checks hchecks hinc (eq_false_of_ne_true hhalt))
  · rfl

/-- Settles O12: the sequencer's advance keeps PC, so it is the clock edge's. -/
theorem pcUpdateByPriority : Obligations.PcUpdateByPriority := by
  intro c s s' cw hrun hword hstep hs'
  obtain ⟨hchecks, rfl⟩ := stepT_completed_under hrun hword hstep hs'
  obtain ⟨-, -, -, -, hpc, -⟩ := advance_frame c (clock cw (busOf cw s) s)
  rw [hpc]
  exact nextPc_by_priority hchecks

/-! The sequencer (R98 to R101). -/

/-- Settles O16: the clock edge leaves the index and `dec`, and the advance has one equation for each range of the index. -/
theorem sequencerAdvances : Obligations.SequencerAdvances := by
  intro c s s' hrun hstep hs'
  obtain ⟨cw, -, -, rfl⟩ := stepT_completed hrun hstep hs'
  refine ⟨fun h0 => ?_, fun h1 => ?_, fun h2 => ?_⟩
  · rw [advance_zero c (s := clock cw (busOf cw s) s) h0]
    exact ⟨rfl, rfl⟩
  · rw [advance_one c (s := clock cw (busOf cw s) s) h1]
    simp
  · obtain ⟨n, hn⟩ : ∃ n, s.t = n + 2 := ⟨s.t - 2, by omega⟩
    rw [advance_execute c (s := clock cw (busOf cw s) s) hn, hn]
    exact ⟨rfl, rfl⟩

/-- Settles O14: at index 0 the word is FETCH0, whose T-state is known. -/
theorem fetchT0 : Obligations.FetchT0 := by
  intro c s hboundary
  obtain ⟨hrun, ht⟩ : s.running = true ∧ s.t = 0 := by simpa [State.atBoundary] using hboundary
  rw [stepT_of_running c hrun (currentWord_of_t_eq_zero ht), tState_fetch0]
  split_ifs
  · rfl
  · exact congrArg Host.Outcome.next (advance_zero c ht)

/-- Fetch T1 in terms of the dispatch of the byte at MAR (R99 to R101). -/
theorem stepT_fetchT1 (c : Config) {s : State} (hrun : s.running = true) (ht : s.t = 1) {ops : List ControlWord}
    {reported : Bool} (hdispatch : dispatch c (s.mem.read s.mar) = (ops, reported)) :
    stepT c s = .next { s with
      i := s.mem.read s.mar
      dec := ops
      t := if ops = [] then 0 else 2
      reports := if reported then s.reports ++ [s.mem.read s.mar] else s.reports } := by
  rw [stepT_of_running c hrun (currentWord_of_t_eq_one ht), tState_fetch1,
    advance_one c (s := { s with i := s.mem.read s.mar }) ht]
  simp only [hdispatch, List.isEmpty_iff]

/-- Settles O15: a mapped opcode dispatches to its row's microprogram, an unmapped one to the default with a report. -/
theorem fetchT1Decodes : Obligations.FetchT1Decodes := by
  intro c s hrun ht
  cases hfields : opcodeFields (s.mem.read s.mar) with
  | some fields => exact stepT_fetchT1 c hrun ht (dispatch_mapped c hfields)
  | none =>
    have hstep := stepT_fetchT1 c hrun ht (dispatch_unmapped c hfields)
    cases hundef : c.undefOp with
    | halt => simpa [defaultOps, hundef] using hstep
    | nop => simpa [defaultOps, hundef] using hstep

end Sys2Proof.Machine
end

section
/-! Halted and faulted machines (`40_sequencer.md` R94, R95). -/

namespace Sys2Proof.Machine

theorem final_iff {s : State} : s.final = true ↔ s.halted = true ∧ s.fault = none := by
  simp [State.final]

theorem stepT_of_final (c : Config) {s : State} (h : s.final = true) : stepT c s = .next s := by
  obtain ⟨hhalted, hfault⟩ := final_iff.mp h
  simp [stepT, hhalted, hfault]

theorem step_of_final {s : State} (h : s.final = true) : step s = .next s := by
  obtain ⟨hhalted, hfault⟩ := final_iff.mp h
  simp [step, hhalted, hfault]

/-- The loop stays at a state the T-state step does not move. -/
theorem runTStates_of_fixed {c : Config} {s : State} (h : stepT c s = .next s) (n : Nat) :
    runTStates c n s = .next s := by
  induction n with
  | zero => rfl
  | succ n ih => rw [runTStates_succ h, ih, ite_self]

/-- A run of any machine stays at a state its step does not move. -/
theorem run_of_fixed {M : Host.Core} {s : M.State} (h : M.step s = .next s) (n : Nat) : M.run n s = .next s := by
  induction n with
  | zero => rfl
  | succ n ih => simpa only [Host.Core.run, h] using ih

/-- Settles O17: a halted state is a fixed point of both steps, and so of their iterations. -/
theorem haltedMachineNeverMoves : Obligations.HaltedMachineNeverMoves := fun c _ hfinal =>
  ⟨stepT_of_final c hfinal, runTStates_of_fixed (stepT_of_final c hfinal) 7, step_of_final hfinal,
    run_of_fixed (M := Sys2Proof.core) (step_of_final hfinal)⟩

theorem stepT_of_faulted (c : Config) {s : State} {k : Fault} (h : s.fault = some k) :
    stepT c s = .refused (.faulted k) := by
  simp [stepT, h]

theorem runTStates_succ_of_refused {c : Config} {s : State} {r : Refusal} (h : stepT c s = .refused r) (n : Nat) :
    runTStates c (n + 1) s = .refused r := by
  simp [runTStates, h]

theorem step_of_faulted {s : State} {k : Fault} (h : s.fault = some k) : step s = .refused (.faulted k) := by
  simp [step, h]

/-- Settles O18: every step looks at the fault field first; the loop's first T-state does. -/
theorem faultedMachineRefusesEveryStep : Obligations.FaultedMachineRefusesEveryStep := fun c _ _ hfault =>
  ⟨stepT_of_faulted c hfault, runTStates_succ_of_refused (stepT_of_faulted c hfault) 6, step_of_faulted hfault⟩

end Sys2Proof.Machine
end

section
/-! Microprograms composed from their words (`40_sequencer.md` R101 to R109, `41_load_arithmetic.md` R118 to R126): the effect
of one execute word, of a list of them, and so of a 2-byte instruction run T-state by T-state. -/

namespace Sys2Proof.Machine

theorem atBoundary_iff {s : State} : s.atBoundary = true ↔ s.running = true ∧ s.t = 0 := by
  simp [State.atBoundary]

/-- A T-state that raises a fault ends the loop (R111, R113). -/
theorem runTStates_succ_of_raise {c : Config} {s s₁ : State} {k : Fault} (h : stepT c s = .next (s₁.raise k)) (n : Nat) :
    runTStates c (n + 1) s = .next (s₁.raise k) := by
  rw [runTStates_succ h]
  simp

/-- An unfaulted T-state that ends elsewhere than at T0 leaves the loop running (R111). -/
theorem runTStates_succ_of_underWay {c : Config} {s s' : State} (h : stepT c s = .next s') (hfault : s'.fault = none)
    (ht : s'.t ≠ 0) (n : Nat) : runTStates c (n + 1) s = runTStates c n s' := by
  rw [runTStates_succ h]
  simp [hfault, ht]

/-- Running inside an execute microprogram, with these words of it left. -/
structure State.Executing (s : State) (left : List ControlWord) : Prop where
  running : s.running = true
  position : ∃ done, s.dec = done ++ left ∧ s.t = done.length + 2

theorem State.Executing.fault_eq_none {s : State} {left : List ControlWord} (h : s.Executing left) : s.fault = none :=
  (running_iff.mp h.running).2

/-- A T-state inside the microprogram runs the first word left. -/
theorem State.Executing.stepT_eq {s : State} {cw : ControlWord} {ws : List ControlWord} (h : s.Executing (cw :: ws))
    (c : Config) : stepT c s = .next (tState c cw s) := by
  obtain ⟨done, hdec, ht⟩ := h.position
  exact stepT_of_running c h.running (by simp [currentWord, ht, hdec])

/-- The sequencer after a word that left `dec` and the index alone (R101). -/
theorem State.Executing.advance_eq {s s₁ : State} {cw : ControlWord} {ws : List ControlWord}
    (h : s.Executing (cw :: ws)) (c : Config) (hdec₁ : s₁.dec = s.dec) (ht₁ : s₁.t = s.t) :
    advance c s₁ = { s₁ with t := if ws = [] then 0 else s.t + 1 } := by
  obtain ⟨done, hdec, ht⟩ := h.position
  rw [advance_execute c (ht₁.trans ht), hdec₁, hdec, ht]
  simp

/-- After a word that left the machine running, the words behind it are left. -/
theorem State.Executing.tail {s s₁ : State} {cw : ControlWord} {ws : List ControlWord} (h : s.Executing (cw :: ws))
    (hrun₁ : s₁.running = true) (hdec₁ : s₁.dec = s.dec) : State.Executing { s₁ with t := s.t + 1 } ws := by
  obtain ⟨done, hdec, ht⟩ := h.position
  exact ⟨hrun₁, done ++ [cw], by simp [hdec₁, hdec], by simp [ht]⟩

/-- In every state the word's T-state has this effect, a function of the byte MAR addresses and of the state, and then lets
the sequencer advance; the effect leaves the sequencer's fields alone. -/
structure WordHasEffect (cw : ControlWord) (effect : Byte → State → State) : Prop where
  tState_eq : ∀ c s, tState c cw s = advance c (effect (s.mem.read s.mar) s)
  control : ∀ data s, (effect data s).running = s.running ∧ (effect data s).dec = s.dec
  index : ∀ data s t, effect data { s with t := t } = { effect data s with t := t }

theorem memToMar_hasEffect : WordHasEffect memToMar (fun data s => { s with mar := data }) :=
  ⟨tState_memToMar, fun _ _ => ⟨rfl, rfl⟩, fun _ _ _ => rfl⟩

theorem memToA_hasEffect : WordHasEffect memToA loadA :=
  ⟨tState_memToA, fun _ _ => ⟨rfl, rfl⟩, fun _ _ _ => rfl⟩

theorem memToB_hasEffect : WordHasEffect memToB (fun data s => { s with b := data }) :=
  ⟨tState_memToB, fun _ _ => ⟨rfl, rfl⟩, fun _ _ _ => rfl⟩

theorem aluToA_hasEffect : WordHasEffect aluToA (fun _ s => { s with a := s.a + s.b }) :=
  ⟨tState_aluToA, fun _ _ => ⟨rfl, rfl⟩, fun _ _ _ => rfl⟩

theorem aluSubToA_hasEffect : WordHasEffect aluSubToA (fun _ s => { s with a := s.a - s.b }) :=
  ⟨tState_aluSubToA, fun _ _ => ⟨rfl, rfl⟩, fun _ _ _ => rfl⟩

section
variable {cw : ControlWord} {effect : Byte → State → State} {ws : List ControlWord} {s : State}

theorem WordHasEffect.t_eq (hcw : WordHasEffect cw effect) (data : Byte) (s : State) : (effect data s).t = s.t := by
  have hindex : effect data s = { effect data s with t := s.t } := hcw.index data s s.t
  rw [hindex]

/-- One T-state of the microprogram under a word with an effect. -/
theorem WordHasEffect.stepT_eq (hcw : WordHasEffect cw effect) (c : Config) (hs : s.Executing (cw :: ws)) :
    stepT c s = .next { effect (s.mem.read s.mar) s with t := if ws = [] then 0 else s.t + 1 } := by
  rw [hs.stepT_eq, hcw.tState_eq, hs.advance_eq c (hcw.control _ s).2 (hcw.t_eq _ s)]

/-- The last word wraps to T0, where the loop stops. -/
theorem WordHasEffect.runTStates_last (hcw : WordHasEffect cw effect) (c : Config) (n : Nat) (hs : s.Executing [cw]) :
    runTStates c (n + 1) s = .next (effect (s.mem.read s.mar) s).endInstr := by
  rw [runTStates_succ (hcw.stepT_eq c hs)]
  simp [State.endInstr]

theorem WordHasEffect.executing_tail (hcw : WordHasEffect cw effect) (hs : s.Executing (cw :: ws)) (data : Byte) :
    State.Executing { effect data s with t := s.t + 1 } ws := by
  obtain ⟨hrun, hdec⟩ := hcw.control data s
  exact hs.tail (hrun.trans hs.running) hdec

/-- Any other word leaves the loop at the next one. -/
theorem WordHasEffect.runTStates_cons (hcw : WordHasEffect cw effect) (c : Config) (n : Nat) (hne : ws ≠ [])
    (hs : s.Executing (cw :: ws)) :
    runTStates c (n + 1) s = runTStates c n { effect (s.mem.read s.mar) s with t := s.t + 1 } := by
  have hstep := hcw.stepT_eq c hs
  rw [if_neg hne] at hstep
  exact runTStates_succ_of_underWay hstep (hcw.executing_tail hs _).fault_eq_none (Nat.succ_ne_zero _) n

end

/-- From every state where these words are the ones left, the loop of T-states ends the instruction with this effect. -/
structure WordsHaveEffect (ws : List ControlWord) (effect : Byte → State → State) : Prop where
  ne_nil : ws ≠ []
  runs : ∀ (c : Config) (n : Nat) (s : State), s.Executing ws → ws.length ≤ n →
    runTStates c n s = .next (effect (s.mem.read s.mar) s).endInstr
  index : ∀ data s t, (effect data { s with t := t }).endInstr = (effect data s).endInstr

theorem WordHasEffect.singleton {cw : ControlWord} {effect : Byte → State → State} (hcw : WordHasEffect cw effect) :
    WordsHaveEffect [cw] effect where
  ne_nil := List.cons_ne_nil _ _
  runs := by
    rintro c (_ | n) s hs hn
    · exact absurd hn (by simp)
    · exact hcw.runTStates_last c n hs
  index data s t := by rw [hcw.index]; rfl

/-- The rest of the microprogram reads the byte that MAR addresses after the first word. -/
theorem WordsHaveEffect.cons {cw : ControlWord} {ws : List ControlWord} {head rest : Byte → State → State}
    (hws : WordsHaveEffect ws rest) (hcw : WordHasEffect cw head) :
    WordsHaveEffect (cw :: ws) (fun data s => rest ((head data s).mem.read (head data s).mar) (head data s)) where
  ne_nil := List.cons_ne_nil _ _
  runs := by
    rintro c (_ | n) s hs hn
    · exact absurd hn (by simp)
    · rw [hcw.runTStates_cons c n hws.ne_nil hs,
        hws.runs c n _ (hcw.executing_tail hs _) (Nat.le_of_succ_le_succ hn), hws.index]
  index data s t := by rw [hcw.index, hws.index]

theorem lda_wordsHaveEffect : WordsHaveEffect (opOps .lda) loadA := memToA_hasEffect.singleton

/-- The adder of the second word reads the B that the first one wrote. -/
theorem add_wordsHaveEffect : WordsHaveEffect (opOps .add) addToA := aluToA_hasEffect.singleton.cons memToB_hasEffect

theorem sub_wordsHaveEffect : WordsHaveEffect (opOps .sub) subFromA :=
  aluSubToA_hasEffect.singleton.cons memToB_hasEffect

/-- A mode's micro-ops are the operand fetch and one MEM_TO_MAR for each level its datum is read through (R104 to R108). -/
theorem executeOps_eq_opFetch_cons (c : Config) {mn : Mnemonic} {m : AddrMode} {operation : Byte → State → State}
    (hoperand : m.takesOperand = true) (hop : WordsHaveEffect (opOps mn) operation) :
    ∃ ws, executeOps c mn m = opFetch :: ws ∧
      WordsHaveEffect ws (fun operand s =>
        operation (datumOf c m operand s).value { s with mar := (datumOf c m operand s).address }) := by
  have absolute := hop.cons memToMar_hasEffect
  have indirect := absolute.cons memToMar_hasEffect
  cases m with
  | implied => exact absurd hoperand (by decide)
  | immediate => exact ⟨_, rfl, hop⟩
  | absolute => exact ⟨_, rfl, absolute⟩
  | indirect => exact ⟨_, rfl, indirect⟩
  | absoluteBranching =>
    cases hshape : c.branchShape with
    | operand => simp only [executeOps, modeOps, datumOf, hshape]; exact ⟨_, rfl, hop⟩
    | fetched => simp only [executeOps, modeOps, datumOf, hshape]; exact ⟨_, rfl, absolute⟩
  | indirectBranching =>
    cases hshape : c.branchShape with
    | operand => simp only [executeOps, modeOps, datumOf, hshape]; exact ⟨_, rfl, absolute⟩
    | fetched => simp only [executeOps, modeOps, datumOf, hshape]; exact ⟨_, rfl, indirect⟩

/-- The operand fetch and what is left after it, as `withOperandFetch` says (R104, R113). -/
theorem runTStates_operandFetch (c : Config) {n : Nat} {s : State} {ws : List ControlWord}
    {effect : Byte → State → State} (hs : s.Executing (opFetch :: ws)) (hws : WordsHaveEffect ws effect)
    (hn : ws.length ≤ n) :
    runTStates c (n + 1) s = .next (withOperandFetch c s (fun s₂ => (effect (s₂.mem.read s₂.mar) s₂).endInstr)) := by
  have hstep := hs.stepT_eq c
  rw [tState_opFetch] at hstep
  unfold withOperandFetch
  split_ifs at hstep ⊢ with hpc
  · exact runTStates_succ_of_raise hstep n
  · have hadvance := hs.advance_eq c (s₁ := s.afterOperandFetch) rfl rfl
    rw [if_neg hws.ne_nil] at hadvance
    have hleft : State.Executing { s.afterOperandFetch with t := s.t + 1 } ws := hs.tail hs.running rfl
    rw [runTStates_succ_of_underWay (hstep.trans (congrArg _ hadvance)) hs.fault_eq_none (Nat.succ_ne_zero _),
      hws.runs c n _ hleft hn, hws.index]

/-- The two T-states of the fetch of a mapped opcode with a microprogram, and what is left after them, as `withFetch` says
(R98 to R101, R113). -/
theorem runTStates_fetch (c : Config) {n : Nat} {s : State} {op : Byte} {ops : List ControlWord} {rest : State → State}
    (hboundary : s.atBoundary = true) (hop : s.mem.read s.pc = op) (hdispatch : dispatch c op = (ops, false))
    (hne : ops ≠ []) (hrest : runTStates c n (s.afterFetch c op) = .next (rest (s.afterFetch c op))) :
    runTStates c (n + 2) s = .next (withFetch c op s rest) := by
  obtain ⟨hrun, -⟩ := atBoundary_iff.mp hboundary
  have hfault : s.fault = none := (running_iff.mp hrun).2
  have hT0 := fetchT0 c s hboundary
  unfold withFetch
  split_ifs at hT0 ⊢ with hpc
  · exact runTStates_succ_of_raise hT0 (n + 1)
  · subst hop
    have hT1 := stepT_fetchT1 c (s := { s with mar := s.pc, pc := inc s.pc, t := 1 }) hrun rfl hdispatch
    have hfetched : s.afterFetch c (s.mem.read s.pc) =
        { s with mar := s.pc, pc := inc s.pc, i := s.mem.read s.pc, dec := ops, t := 2 } := by
      rw [State.afterFetch, hdispatch]
    rw [if_neg hne, if_neg Bool.false_ne_true, ← hfetched] at hT1
    rw [runTStates_succ_of_underWay hT0 hfault Nat.one_ne_zero,
      runTStates_succ_of_underWay hT1 hfault (Nat.succ_ne_zero 1), hrest]

/-- A 2-byte instruction run by its microcode from a boundary is the net effect of its mode and operation on the byte after
its opcode, in every configuration (R102, R111, R116). -/
theorem stepInstr_eq_operandInstr (c : Config) {s : State} {mn : Mnemonic} {m : AddrMode}
    {operation : Byte → State → State} (hlegal : m ∈ mn.legalModes) (hoperand : m.takesOperand = true)
    (hop : WordsHaveEffect (opOps mn) operation) (hboundary : s.atBoundary = true)
    (hopcode : s.mem.read s.pc = opcodeByte mn m) :
    stepInstr c s = .next (operandInstr c mn m (s.mem.read (inc s.pc)) s operation) := by
  have hdispatch := dispatch_opcodeByte c hlegal
  have hlength := dispatch_length_le c (opcodeByte mn m)
  obtain ⟨ws, hwords, hws⟩ := executeOps_eq_opFetch_cons c hoperand hop
  rw [hwords] at hdispatch
  rw [hdispatch] at hlength
  obtain ⟨hrun, -⟩ := atBoundary_iff.mp hboundary
  have hexec : (s.afterFetch c (opcodeByte mn m)).Executing (opFetch :: ws) :=
    ⟨hrun, [], by simp [hdispatch], rfl⟩
  exact runTStates_fetch c hboundary hopcode hdispatch (List.cons_ne_nil _ _)
    (runTStates_operandFetch c hexec hws (Nat.le_of_succ_le_succ hlength))

/-- LDA's microcode is its net effect (R118 to R120). -/
theorem stepInstr_eq_lda (c : Config) {s : State} {m : AddrMode} (hlegal : m ∈ Mnemonic.lda.legalModes)
    (hboundary : s.atBoundary = true) (hopcode : s.mem.read s.pc = opcodeByte .lda m) :
    stepInstr c s = .next (lda c m (s.mem.read (inc s.pc)) s) :=
  have hoperand : ∀ m ∈ Mnemonic.lda.legalModes, m.takesOperand = true := by decide
  stepInstr_eq_operandInstr c hlegal (hoperand m hlegal) lda_wordsHaveEffect hboundary hopcode

/-- ADD's microcode is its net effect (R121 to R123). -/
theorem stepInstr_eq_add (c : Config) {s : State} {m : AddrMode} (hlegal : m ∈ Mnemonic.add.legalModes)
    (hboundary : s.atBoundary = true) (hopcode : s.mem.read s.pc = opcodeByte .add m) :
    stepInstr c s = .next (add c m (s.mem.read (inc s.pc)) s) :=
  have hoperand : ∀ m ∈ Mnemonic.add.legalModes, m.takesOperand = true := by decide
  stepInstr_eq_operandInstr c hlegal (hoperand m hlegal) add_wordsHaveEffect hboundary hopcode

/-- SUB's microcode is its net effect (R124 to R126). -/
theorem stepInstr_eq_sub (c : Config) {s : State} {m : AddrMode} (hlegal : m ∈ Mnemonic.sub.legalModes)
    (hboundary : s.atBoundary = true) (hopcode : s.mem.read s.pc = opcodeByte .sub m) :
    stepInstr c s = .next (sub c m (s.mem.read (inc s.pc)) s) :=
  have hoperand : ∀ m ∈ Mnemonic.sub.legalModes, m.takesOperand = true := by decide
  stepInstr_eq_operandInstr c hlegal (hoperand m hlegal) sub_wordsHaveEffect hboundary hopcode

/-- Settles O33: the microprograms are rows of the listing, and the state the loop leaves is LDA's net effect in each mode,
whose two checks of PC and whose fields are those of the statement by definition. -/
theorem ldaByMicrocode : Obligations.LdaByMicrocode := fun c _ hboundary =>
  ⟨fun hop => ⟨dispatch_lda_immediate c, rfl, stepInstr_eq_lda c (m := .immediate) (by decide) hboundary hop⟩,
    fun hop => ⟨dispatch_lda_absolute c, rfl, stepInstr_eq_lda c (m := .absolute) (by decide) hboundary hop⟩,
    fun hop => ⟨dispatch_lda_indirect c, rfl, stepInstr_eq_lda c (m := .indirect) (by decide) hboundary hop⟩⟩

/-- Settles O34, as O33: the state the loop leaves is ADD's net effect in each mode. -/
theorem addByMicrocode : Obligations.AddByMicrocode := fun c _ hboundary =>
  ⟨fun hop => ⟨dispatch_add_immediate c, rfl, stepInstr_eq_add c (m := .immediate) (by decide) hboundary hop⟩,
    fun hop => ⟨dispatch_add_absolute c, rfl, stepInstr_eq_add c (m := .absolute) (by decide) hboundary hop⟩,
    fun hop => ⟨dispatch_add_indirect c, rfl, stepInstr_eq_add c (m := .indirect) (by decide) hboundary hop⟩⟩

/-- Settles O35, as O33: the state the loop leaves is SUB's net effect in each mode. -/
theorem subByMicrocode : Obligations.SubByMicrocode := fun c _ hboundary =>
  ⟨fun hop => ⟨dispatch_sub_immediate c, rfl, stepInstr_eq_sub c (m := .immediate) (by decide) hboundary hop⟩,
    fun hop => ⟨dispatch_sub_absolute c, rfl, stepInstr_eq_sub c (m := .absolute) (by decide) hboundary hop⟩,
    fun hop => ⟨dispatch_sub_indirect c, rfl, stepInstr_eq_sub c (m := .indirect) (by decide) hboundary hop⟩⟩

end Sys2Proof.Machine
end

section
/-! Control and output run by their microcode (`42_control_output.md` R128 to R134): JMP as the 2-byte instruction it is, and
the 1-byte opcodes, mapped or not, as a fetch followed by no control word or by one. -/

namespace Sys2Proof.Machine

/-! JMP (R128, R129). -/

theorem memToPc_hasEffect : WordHasEffect memToPc jumpTo :=
  ⟨tState_memToPc, fun _ _ => ⟨rfl, rfl⟩, fun _ _ _ => rfl⟩

theorem jmp_wordsHaveEffect : WordsHaveEffect (opOps .jmp) jumpTo := memToPc_hasEffect.singleton

/-- JMP's microcode is its net effect, in either branch shape (R128, R129). -/
theorem stepInstr_eq_jmp (c : Config) {s : State} {m : AddrMode} (hlegal : m ∈ Mnemonic.jmp.legalModes)
    (hboundary : s.atBoundary = true) (hopcode : s.mem.read s.pc = opcodeByte .jmp m) :
    stepInstr c s = .next (jmp c m (s.mem.read (inc s.pc)) s) :=
  have hoperand : ∀ m ∈ Mnemonic.jmp.legalModes, m.takesOperand = true := by decide
  stepInstr_eq_operandInstr c hlegal (hoperand m hlegal) jmp_wordsHaveEffect hboundary hopcode

/-- Settles O36: once the branch shape is known, the microprogram is the row of the listing and the state the loop leaves is
JMP's net effect, whose datum is as deep as the shape says. -/
theorem jmpByMicrocode : Obligations.JmpByMicrocode := by
  rintro ⟨undefOp, pcOverflow, shape⟩ s _ hboundary
  have habsolute := stepInstr_eq_jmp ⟨undefOp, pcOverflow, shape⟩ (m := .absoluteBranching) (by decide) hboundary
  have hindirect := stepInstr_eq_jmp ⟨undefOp, pcOverflow, shape⟩ (m := .indirectBranching) (by decide) hboundary
  cases shape with
  | operand =>
    exact ⟨fun hop hwords => hwords ▸ ⟨rfl, rfl, habsolute hop⟩, fun hop hwords => hwords ▸ ⟨rfl, rfl, hindirect hop⟩⟩
  | fetched =>
    exact ⟨fun hop hwords => hwords ▸ ⟨rfl, rfl, habsolute hop⟩, fun hop hwords => hwords ▸ ⟨rfl, rfl, hindirect hop⟩⟩

/-! The fetch of any opcode, reported or not, with a microprogram or without one (R98 to R101). -/

/-- The report of decode, which `dispatch` asks for exactly at an unmapped opcode (R100). -/
def State.reportIf (s : State) (reported : Bool) (op : Byte) : State := if reported then s.report op else s

@[simp] theorem State.reportIf_true (s : State) (op : Byte) : s.reportIf true op = s.report op := rfl
@[simp] theorem State.reportIf_false (s : State) (op : Byte) : s.reportIf false op = s := rfl
@[simp] theorem State.reportIf_running (s : State) (reported : Bool) (op : Byte) :
    (s.reportIf reported op).running = s.running := by cases reported <;> rfl
@[simp] theorem State.reportIf_dec (s : State) (reported : Bool) (op : Byte) :
    (s.reportIf reported op).dec = s.dec := by cases reported <;> rfl
@[simp] theorem State.reportIf_t (s : State) (reported : Bool) (op : Byte) : (s.reportIf reported op).t = s.t := by
  cases reported <;> rfl

section
variable {c : Config} {s : State} {op : Byte} {ops : List ControlWord} {reported : Bool}

/-- Fetch T1 after fetch T0: the opcode is in I, decoded and reported, and an empty microprogram wraps to T0 at once. -/
theorem stepT_decode (hrun : s.running = true) (hop : s.mem.read s.pc = op) (hdispatch : dispatch c op = (ops, reported)) :
    stepT c { s with mar := s.pc, pc := inc s.pc, t := 1 } =
      .next (if ops = [] then ((s.afterFetch c op).reportIf reported op).endInstr
        else (s.afterFetch c op).reportIf reported op) := by
  subst hop
  rw [stepT_fetchT1 c (s := { s with mar := s.pc, pc := inc s.pc, t := 1 }) hrun rfl hdispatch, State.afterFetch, hdispatch]
  cases reported with
  | true => rw [if_pos rfl]; split_ifs <;> rfl
  | false => rw [if_neg Bool.false_ne_true]; split_ifs <;> rfl

/-- The two T-states of a fetch that does not fault: the instruction ends there, or its microprogram is left to run. -/
theorem runTStates_decode (n : Nat) (hboundary : s.atBoundary = true) (hop : s.mem.read s.pc = op)
    (hdispatch : dispatch c op = (ops, reported)) (hpc : pcIncFaults c s.pc = false) :
    runTStates c (n + 2) s =
      if ops = [] then .next ((s.afterFetch c op).reportIf reported op).endInstr
      else runTStates c n ((s.afterFetch c op).reportIf reported op) := by
  obtain ⟨hrun, -⟩ := atBoundary_iff.mp hboundary
  have hT0 := fetchT0 c s hboundary
  have hT1 := stepT_decode hrun hop hdispatch
  rw [if_neg (by simp [hpc])] at hT0
  rw [runTStates_succ_of_underWay hT0 (running_iff.mp hrun).2 Nat.one_ne_zero]
  by_cases hops : ops = []
  · rw [if_pos hops] at hT1 ⊢
    rw [runTStates_succ hT1]
    simp
  · rw [if_neg hops] at hT1 ⊢
    have hdecoded := (State.reportIf_running (s.afterFetch c op) reported op).trans hrun
    exact runTStates_succ_of_underWay hT1 (running_iff.mp hdecoded).2 (by simp) n

/-- An instruction whose fetch faults ends there, and `withFetch` says so; what is left to show is the other case (R91). -/
theorem stepInstr_eq_withFetch {rest : State → State} (hboundary : s.atBoundary = true)
    (hrest : pcIncFaults c s.pc = false → stepInstr c s = .next (rest (s.afterFetch c op))) :
    stepInstr c s = .next (withFetch c op s rest) := by
  rcases withFetch_cases c op s rest with ⟨hpc, hfetch⟩ | ⟨hpc, hfetch⟩
  · have hT0 := fetchT0 c s hboundary
    rw [if_pos hpc] at hT0
    rw [hfetch]
    exact runTStates_succ_of_raise hT0 6
  · rw [hfetch, hrest hpc]

/-- An opcode with an empty microprogram is its fetch and nothing else (R101, R131, R134). -/
theorem stepInstr_of_no_words (hboundary : s.atBoundary = true) (hop : s.mem.read s.pc = op)
    (hdispatch : dispatch c op = ([], reported)) :
    stepInstr c s = .next (withFetch c op s (fun s₁ => (s₁.reportIf reported op).endInstr)) :=
  stepInstr_eq_withFetch hboundary fun hpc => runTStates_decode 5 hboundary hop hdispatch hpc

/-- The last word of a microprogram ends the instruction, also where it halts the machine (R92, R101). -/
theorem State.Executing.runTStates_last {s₁ : State} {cw : ControlWord} (hs : s.Executing [cw]) (n : Nat)
    (hword : tState c cw s = advance c s₁) (hdec : s₁.dec = s.dec) (ht : s₁.t = s.t) :
    runTStates c (n + 1) s = .next s₁.endInstr := by
  have hstep := hs.stepT_eq c
  rw [hword, hs.advance_eq c hdec ht, if_pos rfl] at hstep
  rw [runTStates_succ hstep]
  simp [State.endInstr]

/-- An opcode with one control word is its fetch and then the effect of that word (R101, R130, R132, R133). -/
theorem stepInstr_of_one_word {cw : ControlWord} {effect : State → State} (hboundary : s.atBoundary = true)
    (hop : s.mem.read s.pc = op) (hdispatch : dispatch c op = ([cw], reported))
    (hword : ∀ s, tState c cw s = advance c (effect s)) (heffect : ∀ s, (effect s).dec = s.dec ∧ (effect s).t = s.t) :
    stepInstr c s = .next (withFetch c op s (fun s₁ => (effect (s₁.reportIf reported op)).endInstr)) := by
  refine stepInstr_eq_withFetch hboundary fun hpc => (runTStates_decode 5 hboundary hop hdispatch hpc).trans ?_
  rw [if_neg (List.cons_ne_nil _ _)]
  obtain ⟨hrun, -⟩ := atBoundary_iff.mp hboundary
  have hexec : ((s.afterFetch c op).reportIf reported op).Executing [cw] :=
    ⟨(State.reportIf_running _ _ _).trans hrun, [], by simp [hdispatch], by simp⟩
  obtain ⟨hdec, ht⟩ := heffect ((s.afterFetch c op).reportIf reported op)
  exact hexec.runTStates_last 4 (hword _) hdec ht

end

/-! OUT, NOP and HLT (R130 to R132). -/

theorem stepInstr_eq_outInstr (c : Config) {s : State} (hboundary : s.atBoundary = true)
    (hop : s.mem.read s.pc = 0xFD) : stepInstr c s = .next (outInstr c s) :=
  stepInstr_of_one_word (effect := outputA) hboundary hop (dispatch_out c) (tState_aToO c) fun _ => ⟨rfl, rfl⟩

theorem stepInstr_eq_nopInstr (c : Config) {s : State} (hboundary : s.atBoundary = true)
    (hop : s.mem.read s.pc = 0xFE) : stepInstr c s = .next (nopInstr c s) :=
  stepInstr_of_no_words hboundary hop (dispatch_nop c)

theorem stepInstr_eq_hltInstr (c : Config) {s : State} (hboundary : s.atBoundary = true)
    (hop : s.mem.read s.pc = 0xFF) : stepInstr c s = .next (hltInstr c s) :=
  stepInstr_of_one_word (effect := State.setHalted) hboundary hop (dispatch_hlt c) (tState_haltW c) fun _ => ⟨rfl, rfl⟩

/-- An HLT whose fetch did not fault leaves the machine final (R132). -/
theorem hltInstr_final {c : Config} {s : State} (h : (hltInstr c s).fault = none) : (hltInstr c s).final = true := by
  refine final_iff.mpr ⟨?_, h⟩
  rcases withFetch_cases c (opcodeByte .hlt .implied) s (fun s₁ => s₁.setHalted.endInstr) with ⟨-, hraise⟩ | ⟨-, hend⟩
  · rw [hltInstr, hraise] at h
    exact nomatch h
  · rw [hltInstr, hend]
    rfl

/-- Settles O37: the three microprograms are rows of the listing, the states are the net effects, whose fields are those of
the statement by definition, and the machine HLT leaves never moves (R94). -/
theorem outNopHltByMicrocode : Obligations.OutNopHltByMicrocode := fun c s hboundary =>
  ⟨fun hop => ⟨dispatch_out c, rfl, stepInstr_eq_outInstr c hboundary hop⟩,
    fun hop => ⟨dispatch_nop c, rfl, stepInstr_eq_nopInstr c hboundary hop⟩,
    fun hop => ⟨dispatch_hlt c, rfl, hltInstr c s, stepInstr_eq_hltInstr c hboundary hop, rfl, fun hfault =>
      have hfinal := hltInstr_final hfault
      ⟨stepT_of_final c hfinal, runTStates_of_fixed (stepT_of_final c hfinal) 7⟩⟩⟩

/-! The unmapped opcodes (R133, R134). -/

theorem dispatch_unmapped_of_nop {c : Config} {op : Byte} (hfields : opcodeFields op = none) (hundef : c.undefOp = .nop) :
    dispatch c op = ([], true) := by
  rw [dispatch_unmapped c hfields, defaultOps, hundef]

theorem dispatch_unmapped_of_halt {c : Config} {op : Byte} (hfields : opcodeFields op = none)
    (hundef : c.undefOp = .halt) : dispatch c op = ([haltW], true) := by
  rw [dispatch_unmapped c hfields, defaultOps, hundef]

/-- The default microprogram of an unmapped opcode is its net effect, for either value of UNDEF_OP (R133, R134). -/
theorem stepInstr_eq_unmappedInstr (c : Config) {s : State} (hboundary : s.atBoundary = true)
    (hfields : opcodeFields (s.mem.read s.pc) = none) :
    stepInstr c s = .next (unmappedInstr c (s.mem.read s.pc) s) := by
  unfold unmappedInstr
  cases hundef : c.undefOp with
  | nop => exact stepInstr_of_no_words hboundary rfl (dispatch_unmapped_of_nop hfields hundef)
  | halt =>
    exact stepInstr_of_one_word (effect := State.setHalted) hboundary rfl (dispatch_unmapped_of_halt hfields hundef)
      (tState_haltW c) fun _ => ⟨rfl, rfl⟩

/-- Settles O38: the state the loop leaves is the net effect of UNDEF_OP's default; after the two T-states of the fetch the
default's HALTW is left to run. -/
theorem unmappedByMicrocode : Obligations.UnmappedByMicrocode := by
  intro c s hboundary hfields
  have hstep := stepInstr_eq_unmappedInstr c hboundary hfields
  refine ⟨fun hundef => ?_, fun hundef => ?_⟩
  · have hdispatch := dispatch_unmapped_of_nop hfields hundef
    simp only [unmappedInstr, hundef, withFetch, State.afterFetch, hdispatch] at hstep
    exact ⟨by rw [instrTStates, hdispatch]; rfl, hstep⟩
  · have hdispatch := dispatch_unmapped_of_halt hfields hundef
    simp only [unmappedInstr, hundef, withFetch, State.afterFetch, hdispatch] at hstep
    refine ⟨by rw [instrTStates, hdispatch]; rfl, hstep, fun hpc => ?_⟩
    obtain ⟨hrun, -⟩ := atBoundary_iff.mp hboundary
    exact ⟨_, runTStates_decode 0 hboundary rfl hdispatch hpc, rfl, (running_iff.mp hrun).1⟩

end Sys2Proof.Machine
end

section
/-! The one fault of a whole-instruction step from a boundary (`40_sequencer.md` R91, `60_exceptions.md` R139): the increments
of PC that an opcode of either length makes, and what each of the net effects records for them. -/

namespace Sys2Proof.Machine

theorem inc_eq_top_iff {p : Byte} : inc p = 0xFF ↔ p = 0xFE := by
  rw [inc]
  bv_omega

/-! How many bytes an opcode consumes, and which rows of the table consume one or two (R67). -/

theorem opcodeLength_of_unmapped {op : Byte} (h : opcodeFields op = none) : opcodeLength op = 1 := by
  rw [opcodeLength, h]

theorem opcodeLength_of_operandRow {op : Byte} {mn : Mnemonic} {m : AddrMode} (h : opcodeFields op = some (mn, m))
    (hoperand : m.takesOperand = true) : opcodeLength op = 2 := by
  simp [opcodeLength, h, hoperand]

theorem opcodeLength_of_impliedRow {op : Byte} {mn : Mnemonic} {m : AddrMode} (h : opcodeFields op = some (mn, m))
    (himplied : m.takesOperand = false) : opcodeLength op = 1 := by
  simp [opcodeLength, h, himplied]

/-- The rows without an operand byte are OUT, NOP and HLT in implied mode (R60). -/
theorem impliedRow_cases (mn : Mnemonic) : ∀ m ∈ mn.legalModes, m.takesOperand = false →
    m = .implied ∧ (mn = .out ∨ mn = .nop ∨ mn = .hlt) := by
  cases mn <;> decide

/-- Every mnemonic with an operand byte has a microprogram whose operation leaves the fault field alone (R109). -/
theorem operandRow_operation_keeps_fault {mn : Mnemonic} {m : AddrMode} (hlegal : m ∈ mn.legalModes)
    (hoperand : m.takesOperand = true) :
    ∃ operation, WordsHaveEffect (opOps mn) operation ∧ ∀ data s, (operation data s).fault = s.fault := by
  have hnotImplied : m ≠ .implied := fun h => absurd (h ▸ hoperand) (by decide)
  cases mn with
  | lda => exact ⟨loadA, lda_wordsHaveEffect, loadA_fault⟩
  | add => exact ⟨addToA, add_wordsHaveEffect, addToA_fault⟩
  | sub => exact ⟨subFromA, sub_wordsHaveEffect, subFromA_fault⟩
  | jmp => exact ⟨jumpTo, jmp_wordsHaveEffect, jumpTo_fault⟩
  | out | nop | hlt => exact absurd (List.mem_singleton.mp hlegal) hnotImplied

/-! The fault of an instruction: it increments PC once for each byte it consumes, and each increment is checked. -/

/-- The fault that the increments of PC for the instruction at PC raise, the second one only at a 2-byte opcode (R91). -/
def stepFault (c : Config) (s : State) : Option Fault :=
  if pcIncFaults c s.pc = true ∨ (opcodeLength (s.mem.read s.pc) = 2 ∧ pcIncFaults c (inc s.pc) = true) then
    some .pcOverflow
  else none

theorem stepFault_cases (c : Config) (s : State) : stepFault c s = none ∨ stepFault c s = some .pcOverflow := by
  rw [stepFault]
  split_ifs
  · exact .inr rfl
  · exact .inl rfl

/-- Where it faults, in R139's terms: the increment from 0xFF is the first one there and the second one at 0xFE. -/
theorem stepFault_ne_none_iff {c : Config} {s : State} :
    stepFault c s ≠ none ↔
      c.pcOverflow = .fault ∧ (s.pc = 0xFF ∨ (s.pc = 0xFE ∧ opcodeLength (s.mem.read s.pc) = 2)) := by
  rw [stepFault, ite_ne_right_iff, pcIncFaults_iff, pcIncFaults_iff, inc_eq_top_iff]
  constructor
  · rintro ⟨⟨htop, hover⟩ | ⟨hlength, hbelow, hover⟩, -⟩
    · exact ⟨hover, .inl htop⟩
    · exact ⟨hover, .inr ⟨hbelow, hlength⟩⟩
  · rintro ⟨hover, htop | ⟨hbelow, hlength⟩⟩
    · exact ⟨.inl ⟨htop, hover⟩, Option.some_ne_none _⟩
    · exact ⟨.inr ⟨hlength, hbelow, hover⟩, Option.some_ne_none _⟩

section
variable {c : Config} {s : State}

/-- A 1-byte instruction, mapped or not, can fault in fetch T0 alone. -/
theorem withFetch_fault {op : Byte} {rest : State → State} (hfault : s.fault = none)
    (hlength : opcodeLength (s.mem.read s.pc) = 1) (hrest : ∀ s₁, (rest s₁).fault = s₁.fault) :
    (withFetch c op s rest).fault = stepFault c s := by
  rcases withFetch_cases c op s rest with ⟨hpc, hfetch⟩ | ⟨hpc, hfetch⟩
  · simp [stepFault, hfetch, hpc]
  · simp [stepFault, hfetch, hpc, hlength, hrest, hfault]

/-- A 2-byte instruction can fault in fetch T0 and in its operand fetch. -/
theorem operandInstr_fault {mn : Mnemonic} {m : AddrMode} {v : Byte} {operation : Byte → State → State}
    (hfault : s.fault = none) (hlength : opcodeLength (s.mem.read s.pc) = 2)
    (hoperation : ∀ data s₁, (operation data s₁).fault = s₁.fault) :
    (operandInstr c mn m v s operation).fault = stepFault c s := by
  rcases operandInstr_cases c mn m v s operation with ⟨hpc, hinstr⟩ | ⟨hpc, hpc', hinstr⟩ | ⟨hpc, hpc', hinstr⟩
  · simp [stepFault, hinstr, hpc]
  · simp [stepFault, hinstr, hpc', hlength]
  · simp [stepFault, hinstr, hpc, hpc', hoperation, hfault]

end

/-- Every step from a boundary answers, and records the fault of the instruction's increments of PC and no other. -/
theorem stepInstr_fault (c : Config) {s : State} (hboundary : s.atBoundary = true) :
    ∃ s', stepInstr c s = .next s' ∧ s'.fault = stepFault c s := by
  have hfault : s.fault = none := (running_iff.mp (atBoundary_iff.mp hboundary).1).2
  cases hfields : opcodeFields (s.mem.read s.pc) with
  | none =>
    exact ⟨_, stepInstr_eq_unmappedInstr c hboundary hfields,
      withFetch_fault hfault (opcodeLength_of_unmapped hfields) fun _ => by cases c.undefOp <;> rfl⟩
  | some row =>
    obtain ⟨mn, m⟩ := row
    obtain ⟨hop, hlegal⟩ := opcodeFields_eq_some hfields
    cases hm : m.takesOperand with
    | true =>
      obtain ⟨operation, hwords, hkeeps⟩ := operandRow_operation_keeps_fault hlegal hm
      exact ⟨_, stepInstr_eq_operandInstr c hlegal hm hwords hboundary hop.symm,
        operandInstr_fault hfault (opcodeLength_of_operandRow hfields hm) hkeeps⟩
    | false =>
      have hlength := opcodeLength_of_impliedRow hfields hm
      obtain ⟨rfl, rfl | rfl | rfl⟩ := impliedRow_cases mn m hlegal hm
      · exact ⟨_, stepInstr_eq_outInstr c hboundary hop.symm, withFetch_fault hfault hlength fun _ => rfl⟩
      · exact ⟨_, stepInstr_eq_nopInstr c hboundary hop.symm, withFetch_fault hfault hlength fun _ => rfl⟩
      · exact ⟨_, stepInstr_eq_hltInstr c hboundary hop.symm, withFetch_fault hfault hlength fun _ => rfl⟩

/-- Settles O23: the state the step answers records the fault of its increments of PC, whose place and kind are R139's. -/
theorem pcOverflowIsTheOnlyFault : Obligations.PcOverflowIsTheOnlyFault := by
  intro c s s' hboundary hstep
  obtain ⟨s₁, hanswer, hfault⟩ := stepInstr_fault c hboundary
  obtain rfl : s₁ = s' := Host.Outcome.next.inj (hanswer.symm.trans hstep)
  rw [hfault]
  exact ⟨stepFault_ne_none_iff, stepFault_cases c s⟩

end Sys2Proof.Machine
end

section
/-! The reset state and the load of a program into it (`70_reset_and_hazards.md` R153, R160, R161). A load is followed from
its end: the last byte's pulses act on the state the bytes before it leave. -/

namespace Sys2Proof.Machine

@[simp] theorem State.afterReset_eq (s : State) : s.afterReset = State.reset := rfl

/-- Settles O48: whatever the state before it, reset leaves the reset state, at index 0 and with no byte of memory listed. -/
theorem resetValues : Obligations.ResetValues := by
  intro s
  rw [State.afterReset_eq]
  exact ⟨rfl, rfl, rfl, rfl, rfl, rfl, Memory.read_nil, rfl, rfl, rfl, rfl, rfl, currentWord_of_t_eq_zero rfl⟩

theorem toNat_ofInt_of_byte {v : Int} (h : 0 ≤ v ∧ v < 256) : ((BitVec.ofInt 8 v).toNat : Int) = v := by
  rw [BitVec.toNat_ofInt]
  omega

/-! The three things a load does with its next value. -/

theorem loadFrom_cons_of_byte {address : Nat} {v : Int} (rest : List Int) (s : State) (haddress : address < 256)
    (hv : 0 ≤ v ∧ v < 256) :
    loadFrom address (v :: rest) s =
      loadFrom (address + 1) rest
        { s with mar := BitVec.ofNat 8 address, mem := s.mem.write (BitVec.ofNat 8 address) (BitVec.ofInt 8 v) } := by
  rw [loadFrom, if_neg (by omega), if_pos hv, loadPulses_eq]

theorem loadFrom_cons_of_address_out_of_range {address : Nat} (v : Int) (rest : List Int) (s : State)
    (haddress : 256 ≤ address) : loadFrom address (v :: rest) s = s.raise .loadAddressOutOfRange := by
  rw [loadFrom, if_pos haddress]

theorem loadFrom_cons_of_value_out_of_range {address : Nat} {v : Int} (rest : List Int) (s : State)
    (haddress : address < 256) (hv : ¬(0 ≤ v ∧ v < 256)) :
    loadFrom address (v :: rest) s = State.raise { s with mar := BitVec.ofNat 8 address } .loadValueOutOfRange := by
  rw [loadFrom, if_neg (by omega), if_neg hv, loadAddressPulse_eq]

/-! The values a load gets past without a fault, and where it goes on after them. -/

/-- At most 256 values, each of them a byte (R161). -/
def Loadable (program : List Int) : Prop := program.length ≤ 256 ∧ ∀ v ∈ program, 0 ≤ v ∧ v < 256

theorem loadable_take {program : List Int} {k : Nat} (hk : k ≤ 256) (hbytes : ∀ v ∈ program.take k, 0 ≤ v ∧ v < 256) :
    Loadable (program.take k) := ⟨(List.length_take_le k program).trans hk, hbytes⟩

theorem loadable_concat_iff {program : List Int} {v : Int} :
    Loadable (program ++ [v]) ↔ Loadable program ∧ program.length < 256 ∧ 0 ≤ v ∧ v < 256 := by
  simp only [Loadable, List.length_append, List.length_singleton, List.forall_mem_append, List.forall_mem_singleton]
  constructor
  · rintro ⟨hlength, hbytes, hv⟩
    exact ⟨⟨by omega, hbytes⟩, hlength, hv⟩
  · rintro ⟨⟨-, hbytes⟩, hlength, hv⟩
    exact ⟨hlength, hbytes, hv⟩

/-- Past values that fit in memory the load goes on at the address after them, in the state they leave. -/
theorem loadFrom_append {loaded : List Int} {address : Nat} (rest : List Int) (s : State)
    (hfits : address + loaded.length ≤ 256) (hbytes : ∀ v ∈ loaded, 0 ≤ v ∧ v < 256) :
    loadFrom address (loaded ++ rest) s = loadFrom (address + loaded.length) rest (loadFrom address loaded s) := by
  induction loaded generalizing address s with
  | nil => rfl
  | cons v loaded ih =>
    rw [List.length_cons] at hfits
    obtain ⟨hv, hloaded⟩ := List.forall_mem_cons.mp hbytes
    rw [List.cons_append, loadFrom_cons_of_byte _ _ (by omega) hv, loadFrom_cons_of_byte _ _ (by omega) hv,
      ih _ (by omega) hloaded, List.length_cons, Nat.add_right_comm, Nat.add_assoc]

theorem loadProgram_append {loaded : List Int} (rest : List Int) (s : State) (h : Loadable loaded) :
    loadProgram (loaded ++ rest) s = loadFrom loaded.length rest (loadProgram loaded s) := by
  rw [loadProgram, loadFrom_append rest s (by rw [Nat.zero_add]; exact h.1) h.2, Nat.zero_add, loadProgram]

/-- One more value: the pulses of its byte, on the state the values before it leave. -/
theorem loadProgram_concat {program : List Int} {v : Int} (s : State) (h : Loadable (program ++ [v])) :
    loadProgram (program ++ [v]) s =
      { loadProgram program s with
        mar := BitVec.ofNat 8 program.length
        mem := (loadProgram program s).mem.write (BitVec.ofNat 8 program.length) (BitVec.ofInt 8 v) } := by
  obtain ⟨hprogram, hlength, hv⟩ := loadable_concat_iff.mp h
  rw [loadProgram_append _ _ hprogram, loadFrom_cons_of_byte _ _ hlength hv, loadFrom]

/-! What a load without a fault leaves of the reset state. -/

theorem loadProgram_reset_eq {program : List Int} (h : Loadable program) :
    loadProgram program State.reset =
      { State.reset with
        mem := (loadProgram program State.reset).mem, mar := BitVec.ofNat 8 (program.length - 1) } := by
  induction program using List.reverseRecOn with
  | nil => rfl
  | append_singleton program v ih =>
    rw [loadProgram_concat _ h, ih (loadable_concat_iff.mp h).1, List.length_append, List.length_singleton,
      Nat.add_sub_cancel]

theorem loadProgram_reset_read {program : List Int} (h : Loadable program) (a : Byte) :
    (((loadProgram program State.reset).mem.read a).toNat : Int) = (program[a.toNat]?).getD 0 := by
  induction program using List.reverseRecOn with
  | nil => rfl
  | append_singleton program v ih =>
    obtain ⟨hprogram, hlength, hv⟩ := loadable_concat_iff.mp h
    have hlast : (BitVec.ofNat 8 program.length).toNat = program.length := by
      rw [BitVec.toNat_ofNat]
      omega
    rw [loadProgram_concat _ h]
    by_cases ha : a = BitVec.ofNat 8 program.length
    · have hwf : (loadProgram program State.reset).mem.wf = true := loadFrom_wf program 0 Memory.wf_nil
      rw [ha, Memory.read_write_same hwf, toNat_ofInt_of_byte hv, hlast, List.getElem?_concat_length, Option.getD_some]
    · have hne : a.toNat ≠ program.length := fun he => ha (BitVec.eq_of_toNat_eq (he.trans hlast.symm))
      have hkept : (program ++ [v])[a.toNat]? = program[a.toNat]? := by
        rcases Nat.lt_or_gt_of_ne hne with hlt | hgt
        · exact List.getElem?_append_left hlt
        · rw [List.getElem?_eq_none (by rw [List.length_append, List.length_singleton]; omega),
            List.getElem?_eq_none hgt.le]
      rw [Memory.read_write_other _ _ ha, ih hprogram, hkept]

/-- The first T-state after the load is fetch T0 at PC = 0 (R98, R161). -/
theorem stepT_loadProgram_reset (c : Config) {program : List Int} (h : Loadable program) :
    stepT c (loadProgram program State.reset) =
      .next { loadProgram program State.reset with mar := 0x00, pc := 0x01, t := 1 } := by
  rw [loadProgram_reset_eq h, fetchT0 c _ rfl]
  rfl

/-! The two faults of a load: everything before the value it stops at is loaded. -/

/-- The value at index 256 is the one whose address pulse faults. -/
theorem loadProgram_of_too_long {program : List Int} (s : State) (hlong : 256 < program.length)
    (hbytes : ∀ v ∈ program.take 256, 0 ≤ v ∧ v < 256) :
    loadProgram program s = (loadProgram (program.take 256) s).raise .loadAddressOutOfRange := by
  have hlength : (program.take 256).length = 256 := List.length_take_of_le hlong.le
  calc loadProgram program s
      = loadProgram (program.take 256 ++ program[256] :: program.drop 257) s := by
        rw [← List.drop_eq_getElem_cons hlong, List.take_append_drop]
    _ = loadFrom 256 (program[256] :: program.drop 257) (loadProgram (program.take 256) s) := by
        rw [loadProgram_append _ _ (loadable_take le_rfl hbytes), hlength]
    _ = (loadProgram (program.take 256) s).raise .loadAddressOutOfRange :=
        loadFrom_cons_of_address_out_of_range _ _ _ le_rfl

/-- The address pulse of a bad value takes effect, its data pulse faults. -/
theorem loadProgram_of_bad_value {program : List Int} {k : Nat} {bad : Int} (s : State) (hk : k < 256)
    (hget : program[k]? = some bad) (hbad : ¬(0 ≤ bad ∧ bad < 256))
    (hbytes : ∀ v ∈ program.take k, 0 ≤ v ∧ v < 256) :
    loadProgram program s =
      State.raise { loadProgram (program.take k) s with mar := BitVec.ofNat 8 k } .loadValueOutOfRange := by
  obtain ⟨hlt, rfl⟩ := List.getElem?_eq_some_iff.mp hget
  have hlength : (program.take k).length = k := List.length_take_of_le hlt.le
  calc loadProgram program s
      = loadProgram (program.take k ++ program[k] :: program.drop (k + 1)) s := by
        rw [← List.drop_eq_getElem_cons hlt, List.take_append_drop]
    _ = loadFrom k (program[k] :: program.drop (k + 1)) (loadProgram (program.take k) s) := by
        rw [loadProgram_append _ _ (loadable_take hk.le hbytes), hlength]
    _ = State.raise { loadProgram (program.take k) s with mar := BitVec.ofNat 8 k } .loadValueOutOfRange :=
        loadFrom_cons_of_value_out_of_range _ _ hk hbad

/-- Settles O49: a loadable program is read back byte for byte; a load that stops is the load of the values before the one it
stops at, with the fault raised. -/
theorem loadPlacesTheProgram : Obligations.LoadPlacesTheProgram := by
  intro program
  refine ⟨fun hloadable => ?_, fun ⟨hlong, hbytes⟩ => ?_, fun k bad hk hget hbad hbytes => ?_⟩
  · exact ⟨loadProgram_reset_read hloadable, loadProgram_reset_eq hloadable,
      fun c => stepT_loadProgram_reset c hloadable⟩
  · rw [loadProgram_of_too_long _ hlong hbytes]
    refine ⟨fun a => ?_, rfl⟩
    rw [State.raise_mem, loadProgram_reset_read (loadable_take le_rfl hbytes), List.getElem?_take_of_lt a.isLt]
  · rw [loadProgram_of_bad_value _ hk hget hbad hbytes]
    exact ⟨loadProgram_reset_read (loadable_take hk.le hbytes), rfl⟩

end Sys2Proof.Machine
end

section
/-! Decode and encode are inverse to each other (`30_encoding.md` R56, R57, R61): the instruction of a row, seen through its
form, is the row and its operand. -/

namespace Sys2Proof.Machine

/-- Every instruction is read back from its form and is as long as its opcode says. -/
theorem instrForm (i : Instr) : Laws.InstrForm.Statement i := by
  cases i with
  | ldaAbsolute v => exact Laws.InstrForm.ldaAbsolute v
  | addAbsolute v => exact Laws.InstrForm.addAbsolute v
  | subAbsolute v => exact Laws.InstrForm.subAbsolute v
  | ldaIndirect v => exact Laws.InstrForm.ldaIndirect v
  | addIndirect v => exact Laws.InstrForm.addIndirect v
  | subIndirect v => exact Laws.InstrForm.subIndirect v
  | ldaImmediate v => exact Laws.InstrForm.ldaImmediate v
  | addImmediate v => exact Laws.InstrForm.addImmediate v
  | subImmediate v => exact Laws.InstrForm.subImmediate v
  | jmpAbsolute v => exact Laws.InstrForm.jmpAbsolute v
  | jmpIndirect v => exact Laws.InstrForm.jmpIndirect v
  | out => exact Laws.InstrForm.out
  | nop => exact Laws.InstrForm.nop
  | hlt => exact Laws.InstrForm.hlt

/-- The operand byte of an instruction, 0x00 where it has none. -/
def operandByte (i : Instr) : Byte := BitVec.ofNat 8 (i.form.operand.getD 0)

theorem form_wellFormed_iff {f : Form} :
    f.wellFormed = true ↔
      f.mode ∈ f.mnemonic.legalModes ∧ f.operand.isSome = f.mode.takesOperand ∧ f.operand.all (· < 256) = true := by
  simp [Form.wellFormed, Form.modeLegal, Form.operandFits, Form.operandInRange, and_assoc]

theorem form_wellFormed (i : Instr) : i.form.wellFormed = true := (instrForm i).1

/-- The mode of an instruction is one its mnemonic declares (R60). -/
theorem form_mode_legal (i : Instr) : i.form.mode ∈ i.form.mnemonic.legalModes :=
  (form_wellFormed_iff.mp (form_wellFormed i)).1

/-- There is an operand exactly in the modes that take one (R56). -/
theorem form_operand_isSome (i : Instr) : i.form.operand.isSome = i.form.mode.takesOperand :=
  (form_wellFormed_iff.mp (form_wellFormed i)).2.1

/-- An instruction is the one of its row and its operand byte (R61). -/
theorem instrOfRow_form (i : Instr) :
    instrOfRow i.form.mnemonic i.form.mode (operandByte i) = some i := by
  obtain ⟨-, hform, -⟩ := instrForm i
  rwa [Form.toInstr, if_pos (form_wellFormed i)] at hform

/-- The form of a row's instruction is the row with its operand. -/
theorem form_of_instrOfRow {mn : Mnemonic} {m : AddrMode} {v : Byte} {i : Instr} (h : instrOfRow mn m v = some i) :
    i.form = ⟨mn, m, if m.takesOperand then some v.toNat else none⟩ := by
  unfold instrOfRow at h
  split at h <;> cases h <;> rfl

/-- Every row of the table has an instruction (R61). -/
theorem exists_instrOfRow {mn : Mnemonic} {m : AddrMode} (hlegal : m ∈ mn.legalModes) (v : Byte) :
    ∃ i, instrOfRow mn m v = some i := by
  cases mn with
  | lda | add | sub =>
    simp only [Mnemonic.legalModes, List.mem_cons, List.not_mem_nil, or_false] at hlegal
    obtain rfl | rfl | rfl := hlegal <;> exact ⟨_, rfl⟩
  | jmp =>
    simp only [Mnemonic.legalModes, List.mem_cons, List.not_mem_nil, or_false] at hlegal
    obtain rfl | rfl := hlegal <;> exact ⟨_, rfl⟩
  | out | nop | hlt =>
    obtain rfl := List.mem_singleton.mp hlegal
    exact ⟨_, rfl⟩

/-- An encoding is the opcode, and after it the operand byte where there is one (R56). -/
theorem encode_of_instrOfRow {mn : Mnemonic} {m : AddrMode} {v : Byte} {i : Instr} (h : instrOfRow mn m v = some i) :
    encode i = opcodeByte mn m :: if m.takesOperand then [v] else [] := by
  rw [encode, Instr.opcode, form_of_instrOfRow h]
  cases m.takesOperand <;> simp

/-- Decoding reads an encoding back, whatever follows it. -/
theorem decode_encode (i : Instr) (rest : List Byte) : decode (encode i ++ rest) = .ok (i, rest) := by
  have hrow := instrOfRow_form i
  rw [encode_of_instrOfRow hrow]
  cases hm : i.form.mode.takesOperand with
  | true => exact decode_operandRow _ _ (form_mode_legal i) hm hrow
  | false =>
    have hnone : i.form.operand = none := by simpa [hm] using form_operand_isSome i
    exact decode_impliedRow _ _ (form_mode_legal i) hm (by simpa [operandByte, hnone] using hrow)

/-- What is decoded from the bytes after a mapped opcode (R56). -/
theorem decode_mapped {op : Byte} {mn : Mnemonic} {m : AddrMode} {tail : List Byte} {i : Instr} {rest : List Byte}
    (hfields : opcodeFields op = some (mn, m)) (h : decode (op :: tail) = .ok (i, rest)) :
    ∃ v, instrOfRow mn m v = some i ∧ tail = (if m.takesOperand then [v] else []) ++ rest := by
  obtain ⟨-, hlegal⟩ := opcodeFields_eq_some hfields
  cases hm : m.takesOperand with
  | false =>
    obtain ⟨j, hj⟩ := exists_instrOfRow hlegal 0
    simp only [decode, hfields, hm, hj, Bool.false_eq_true, if_false, Option.map_some, Option.elim_some] at h
    cases h
    exact ⟨0, hj, rfl⟩
  | true =>
    cases tail with
    | nil => simp [decode, hfields, hm] at h
    | cons v tail =>
      obtain ⟨j, hj⟩ := exists_instrOfRow hlegal v
      simp only [decode, hfields, hm, hj, if_true, Option.map_some, Option.elim_some] at h
      cases h
      exact ⟨v, hj, rfl⟩

/-- Whatever decodes is the encoding of what is decoded, and the bytes behind it. -/
theorem eq_encode_of_decode {bytes : List Byte} {i : Instr} {rest : List Byte} (h : decode bytes = .ok (i, rest)) :
    bytes = encode i ++ rest := by
  cases bytes with
  | nil => cases h
  | cons op tail =>
    cases hfields : opcodeFields op with
    | none => rw [decode_of_opcodeFields_eq_none tail hfields] at h; cases h
    | some row =>
      obtain ⟨v, hrow, htail⟩ := decode_mapped hfields h
      rw [encode_of_instrOfRow hrow, (opcodeFields_eq_some hfields).1, htail, List.cons_append]

/-- Settles O2: an encoding is read back from its row, and a decoded list is taken apart into one. -/
theorem decodeIsInverseOfEncode : Obligations.DecodeIsInverseOfEncode := fun _ i rest =>
  ⟨eq_encode_of_decode, fun h => h ▸ decode_encode i rest⟩

end Sys2Proof.Machine
end

section
/-! One net effect for every row of the opcode table, and the step as that effect (`40_sequencer.md` section 4): what `exec`
does to an instruction is what the microcode does to its bytes, in every state. -/

namespace Sys2Proof.Machine

/-- The operation of a mnemonic on its data byte (R60), which a mnemonic without an operand ignores. -/
def mnemonicOperation : Mnemonic → Byte → State → State
  | .lda => loadA
  | .add => addToA
  | .sub => subFromA
  | .jmp => jumpTo
  | .out => fun _ => outputA
  | .nop => fun _ s => s
  | .hlt => fun _ => State.setHalted

/-- The net effect of a row of the table with an operand byte: format O is a 2-byte instruction, format I a fetch and the
operation (R56). -/
def rowEffect (c : Config) (mn : Mnemonic) (m : AddrMode) (v : Byte) (s : State) : State :=
  if m.takesOperand then operandInstr c mn m v s (mnemonicOperation mn)
  else withFetch c (opcodeByte mn m) s (fun s₁ => (mnemonicOperation mn v s₁).endInstr)

theorem rowEffect_of_operand (c : Config) {mn : Mnemonic} {m : AddrMode} (v : Byte) (s : State)
    (h : m.takesOperand = true) : rowEffect c mn m v s = operandInstr c mn m v s (mnemonicOperation mn) := by
  rw [rowEffect, if_pos h]

theorem rowEffect_implied (c : Config) (mn : Mnemonic) (v : Byte) (s : State) :
    rowEffect c mn .implied v s =
      withFetch c (opcodeByte mn .implied) s (fun s₁ => (mnemonicOperation mn v s₁).endInstr) := rfl

/-- `exec` of a row's instruction is the row's effect. -/
theorem exec_of_instrOfRow {mn : Mnemonic} {m : AddrMode} {v : Byte} {i : Instr} (h : instrOfRow mn m v = some i)
    (s : State) : exec i s = .next (rowEffect Config.chip mn m v s) := by
  unfold instrOfRow at h
  split at h <;> cases h <;> rfl

theorem exec_eq_rowEffect (i : Instr) (s : State) :
    exec i s = .next (rowEffect Config.chip i.form.mnemonic i.form.mode (operandByte i) s) :=
  exec_of_instrOfRow (instrOfRow_form i) s

/-- The ways a row's effect can end: a fault in fetch T0, a fault in the operand fetch, or its operation on a state that
differs from the one before it in MAR, PC, I, `dec` and the index (R113). -/
theorem rowEffect_cases (c : Config) (mn : Mnemonic) (m : AddrMode) (v : Byte) (s : State) :
    (pcIncFaults c s.pc = true ∧ rowEffect c mn m v s = s.raise .pcOverflow) ∨
      (pcIncFaults c s.pc = false ∧ m.takesOperand = true ∧ pcIncFaults c (inc s.pc) = true ∧
        rowEffect c mn m v s = (s.afterFetch c (opcodeByte mn m)).raise .pcOverflow) ∨
      (pcIncFaults c s.pc = false ∧ ∃ data mar pc,
        rowEffect c mn m v s =
          (mnemonicOperation mn data { s.afterFetch c (opcodeByte mn m) with mar := mar, pc := pc }).endInstr) := by
  cases hm : m.takesOperand with
  | true =>
    rw [rowEffect_of_operand c v s hm]
    obtain ⟨hpc, h⟩ | ⟨hpc, hpc', h⟩ | ⟨hpc, -, h⟩ := operandInstr_cases c mn m v s (mnemonicOperation mn)
    · exact .inl ⟨hpc, h⟩
    · exact .inr (.inl ⟨hpc, rfl, hpc', h⟩)
    · exact .inr (.inr ⟨hpc, _, _, _, h⟩)
  | false =>
    rw [rowEffect, hm]
    obtain ⟨hpc, h⟩ | ⟨hpc, h⟩ :=
      withFetch_cases c (opcodeByte mn m) s (fun s₁ => (mnemonicOperation mn v s₁).endInstr)
    · exact .inl ⟨hpc, h⟩
    · exact .inr (.inr ⟨hpc, v, s.pc, inc s.pc, h⟩)

/-- The operation micro-ops of a mnemonic with an operand do its operation (R109). -/
theorem operandRow_wordsHaveEffect {mn : Mnemonic} {m : AddrMode} (hlegal : m ∈ mn.legalModes)
    (hoperand : m.takesOperand = true) : WordsHaveEffect (opOps mn) (mnemonicOperation mn) := by
  have hnotImplied : m ≠ .implied := fun h => absurd (h ▸ hoperand) (by decide)
  cases mn with
  | lda => exact lda_wordsHaveEffect
  | add => exact add_wordsHaveEffect
  | sub => exact sub_wordsHaveEffect
  | jmp => exact jmp_wordsHaveEffect
  | out | nop | hlt => exact absurd (List.mem_singleton.mp hlegal) hnotImplied

/-- The microcode of a mapped opcode does the net effect of its row on the byte after it, in every configuration. -/
theorem stepInstr_eq_rowEffect (c : Config) {s : State} {mn : Mnemonic} {m : AddrMode} (hboundary : s.atBoundary = true)
    (hfields : opcodeFields (s.mem.read s.pc) = some (mn, m)) :
    stepInstr c s = .next (rowEffect c mn m (s.mem.read (inc s.pc)) s) := by
  obtain ⟨hop, hlegal⟩ := opcodeFields_eq_some hfields
  cases hm : m.takesOperand with
  | true =>
    rw [rowEffect_of_operand c _ s hm]
    exact stepInstr_eq_operandInstr c hlegal hm (operandRow_wordsHaveEffect hlegal hm) hboundary hop.symm
  | false =>
    obtain ⟨rfl, rfl | rfl | rfl⟩ := impliedRow_cases mn m hlegal hm
    · exact stepInstr_eq_outInstr c hboundary hop.symm
    · exact stepInstr_eq_nopInstr c hboundary hop.symm
    · exact stepInstr_eq_hltInstr c hboundary hop.symm

/-! The instruction at PC. -/

theorem instrAtPc_eq_ok_iff {s : State} {i : Instr} :
    instrAtPc s = .ok i ↔ ∃ rest, decode (fetchBytes s) = .ok (i, rest) := by
  unfold instrAtPc
  cases decode (fetchBytes s) with
  | error e => exact ⟨fun h => (nomatch h), fun ⟨_, h⟩ => (nomatch h)⟩
  | ok p =>
    constructor
    · rintro ⟨⟩; exact ⟨p.2, rfl⟩
    · rintro ⟨rest, ⟨⟩⟩; rfl

theorem instrAtPc_mapped {s : State} {mn : Mnemonic} {m : AddrMode}
    (hfields : opcodeFields (s.mem.read s.pc) = some (mn, m)) :
    ∃ i, instrAtPc s = .ok i ∧ instrOfRow mn m (s.mem.read (inc s.pc)) = some i := by
  obtain ⟨hop, hlegal⟩ := opcodeFields_eq_some hfields
  obtain ⟨i, hi⟩ := exists_instrOfRow hlegal (s.mem.read (inc s.pc))
  refine ⟨i, instrAtPc_eq_ok_iff.mpr ?_, hi⟩
  rw [fetchBytes, ← hop]
  cases hm : m.takesOperand with
  | true => exact ⟨[], decode_operandRow mn m hlegal hm hi⟩
  | false =>
    obtain ⟨rfl, rfl | rfl | rfl⟩ := impliedRow_cases mn m hlegal hm <;>
      exact ⟨[_], decode_impliedRow _ _ hlegal hm hi⟩

theorem instrAtPc_unmapped {s : State} (hfields : opcodeFields (s.mem.read s.pc) = none) :
    instrAtPc s = .error (.unmapped (s.mem.read s.pc)) := by
  rw [instrAtPc, fetchBytes, decode_of_opcodeFields_eq_none _ hfields]
  rfl

theorem step_atBoundary {s : State} (hboundary : s.atBoundary = true) : step s = stepAtBoundary s := by
  obtain ⟨hrun, ht⟩ := atBoundary_iff.mp hboundary
  obtain ⟨hhalted, hfault⟩ := running_iff.mp hrun
  simp [step, hfault, hhalted, ht]

theorem step_of_instrAtPc {s : State} {i : Instr} (hboundary : s.atBoundary = true) (hat : instrAtPc s = .ok i) :
    step s = exec i s := by
  rw [step_atBoundary hboundary, stepAtBoundary, hat]

/-- A step at a mapped opcode is the net effect of its row on the byte after it. -/
theorem step_mapped {s : State} {mn : Mnemonic} {m : AddrMode} (hboundary : s.atBoundary = true)
    (hfields : opcodeFields (s.mem.read s.pc) = some (mn, m)) :
    step s = .next (rowEffect Config.chip mn m (s.mem.read (inc s.pc)) s) := by
  obtain ⟨i, hat, hrow⟩ := instrAtPc_mapped hfields
  rw [step_of_instrAtPc hboundary hat, exec_of_instrOfRow hrow]

/-- A step at any other byte is the default of `UNDEF_OP`. -/
theorem step_unmapped {s : State} (hboundary : s.atBoundary = true) (hfields : opcodeFields (s.mem.read s.pc) = none) :
    step s = .next (unmappedInstr Config.chip (s.mem.read s.pc) s) := by
  rw [step_atBoundary hboundary, stepAtBoundary, instrAtPc_unmapped hfields]
  rfl

/-- Settles O19: the two bytes are the ones the step decodes. -/
theorem stepRunsTheDecodedInstruction : Obligations.StepRunsTheDecodedInstruction := fun _ _ rest hboundary hdecode =>
  step_of_instrAtPc hboundary (instrAtPc_eq_ok_iff.mpr ⟨rest, hdecode⟩)

theorem step_eq_stepInstr_atBoundary {s : State} (hboundary : s.atBoundary = true) :
    step s = stepInstr Config.chip s := by
  cases hfields : opcodeFields (s.mem.read s.pc) with
  | none => rw [step_unmapped hboundary hfields, stepInstr_eq_unmappedInstr _ hboundary hfields]
  | some row => rw [step_mapped hboundary hfields, stepInstr_eq_rowEffect _ hboundary hfields]

/-- Settles O20: a faulted machine refuses both, a halted one stays under both, in the middle of an instruction the step is
the loop by definition, and at a boundary both are the net effect of the row, or of the default, at PC. -/
theorem stepIsTheMicrocodeLoop : Obligations.StepIsTheMicrocodeLoop := by
  intro s
  cases hfault : s.fault with
  | some k =>
    obtain ⟨-, hloop, hstep⟩ := faultedMachineRefusesEveryStep Config.chip s k hfault
    rw [hstep, hloop]
  | none =>
    cases hhalted : s.halted with
    | true =>
      obtain ⟨-, hloop, hstep, -⟩ := haltedMachineNeverMoves Config.chip s (final_iff.mpr ⟨hhalted, hfault⟩)
      rw [hstep, hloop]
    | false =>
      by_cases ht : s.t = 0
      · exact step_eq_stepInstr_atBoundary (atBoundary_iff.mpr ⟨running_iff.mpr ⟨hhalted, hfault⟩, ht⟩)
      · simp [step, hfault, hhalted, ht]

end Sys2Proof.Machine
end

section
/-! What an instruction may write and what it leaves (`10_state.md` sections 1 and 5, `20_memory.md` section 1,
`92_eei_decisions.md` D8). -/

namespace Sys2Proof.Machine

/-- What every instruction of a mnemonic leaves alone: memory, the reports, and the registers that others write. MAR, PC, I,
`dec`, the index and the fault field are left open. -/
structure RowFrame (mn : Mnemonic) (s t : State) : Prop where
  mem : t.mem = s.mem
  a : mn ∉ [.lda, .add, .sub] → t.a = s.a
  b : mn ∉ [.add, .sub] → t.b = s.b
  output : mn ≠ .out → t.o = s.o ∧ t.out = s.out
  halted : mn ≠ .hlt → t.halted = s.halted
  reports : t.reports = s.reports

theorem mnemonicOperation_frame (mn : Mnemonic) (data : Byte) (s : State) :
    RowFrame mn s (mnemonicOperation mn data s) := by
  cases mn <;> constructor <;> simp [mnemonicOperation]

theorem mnemonicOperation_fault (mn : Mnemonic) (data : Byte) (s : State) :
    (mnemonicOperation mn data s).fault = s.fault := by
  cases mn <;> rfl

/-- The fetches and a fault write none of the fields of the frame, so the row's effect leaves what its operation leaves. -/
theorem rowEffect_frame (c : Config) (mn : Mnemonic) (m : AddrMode) (v : Byte) (s : State) :
    RowFrame mn s (rowEffect c mn m v s) := by
  obtain ⟨-, h⟩ | ⟨-, -, -, h⟩ | ⟨-, data, mar, pc, h⟩ := rowEffect_cases c mn m v s
  · rw [h]
    exact ⟨rfl, fun _ => rfl, fun _ => rfl, fun _ => ⟨rfl, rfl⟩, fun _ => rfl, rfl⟩
  · rw [h]
    exact ⟨rfl, fun _ => rfl, fun _ => rfl, fun _ => ⟨rfl, rfl⟩, fun _ => rfl, rfl⟩
  · rw [h]
    obtain ⟨hmem, ha, hb, hout, hhalted, hreports⟩ := mnemonicOperation_frame mn data
      { s.afterFetch c (opcodeByte mn m) with mar := mar, pc := pc }
    exact ⟨hmem, ha, hb, hout, hhalted, hreports⟩

/-- The only fault an instruction can add is PcOverflow (R139). -/
theorem rowEffect_fault (c : Config) (mn : Mnemonic) (m : AddrMode) (v : Byte) (s : State) :
    (rowEffect c mn m v s).fault = s.fault ∨ (rowEffect c mn m v s).fault = some .pcOverflow := by
  obtain ⟨-, h⟩ | ⟨-, -, -, h⟩ | ⟨-, data, mar, pc, h⟩ := rowEffect_cases c mn m v s
  · exact .inr (by rw [h, State.raise_fault])
  · exact .inr (by rw [h, State.raise_fault])
  · exact .inl (by rw [h]; exact mnemonicOperation_fault mn data _)

/-- A next state of an instruction is its row's effect. -/
theorem eq_rowEffect_of_exec {i : Instr} {s t : State} (h : exec i s = .next t) :
    t = rowEffect Config.chip i.form.mnemonic i.form.mode (operandByte i) s :=
  Host.Outcome.next.inj (h.symm.trans (exec_eq_rowEffect i s))

/-- Settles O39: memory is part of every row's frame. -/
theorem execLeavesEveryMemoryByte : Obligations.ExecLeavesEveryMemoryByte := by
  intro i s t h a
  rw [eq_rowEffect_of_exec h, (rowEffect_frame _ _ _ _ _).mem]

/-- Settles O40: the frame of the instruction's row, and the fault its increments of PC can add. -/
theorem eachRegisterHasItsWriters : Obligations.EachRegisterHasItsWriters := by
  intro i s t h
  rw [eq_rowEffect_of_exec h]
  obtain ⟨-, ha, hb, hout, hhalted, hreports⟩ :=
    rowEffect_frame Config.chip i.form.mnemonic i.form.mode (operandByte i) s
  exact ⟨ha, hb, hout, hhalted, hreports, rowEffect_fault _ _ _ _ _⟩

/-! The events of a step from a boundary (R32, R33). -/

theorem opcodeByte_eq_out_iff {mn : Mnemonic} {m : AddrMode} (hlegal : m ∈ mn.legalModes) :
    opcodeByte mn m = 0xFD ↔ mn = .out := by
  have hrows : ∀ m ∈ mn.legalModes, (opcodeByte mn m = 0xFD ↔ mn = .out) := by cases mn <;> decide
  exact hrows m hlegal

/-- An OUT that is fetched appends A (R130), and no other row of the table appends anything. -/
theorem rowEffect_out (c : Config) {mn : Mnemonic} {m : AddrMode} (hlegal : m ∈ mn.legalModes) (v : Byte) (s : State) :
    (rowEffect c mn m v s).out =
      s.out ++ if opcodeByte mn m = 0xFD ∧ pcIncFaults c s.pc = false then [s.a] else [] := by
  by_cases hmn : mn = .out
  · subst hmn
    obtain rfl : m = .implied := List.mem_singleton.mp hlegal
    rw [rowEffect_implied]
    obtain ⟨hpc, h⟩ | ⟨hpc, h⟩ := withFetch_cases c (opcodeByte .out .implied) s
      (fun s₁ => (mnemonicOperation .out v s₁).endInstr)
    · rw [h]
      simp [hpc]
    · rw [h]
      simp [hpc, mnemonicOperation]
  · have hop : opcodeByte mn m ≠ 0xFD := fun h => hmn ((opcodeByte_eq_out_iff hlegal).mp h)
    rw [((rowEffect_frame c mn m v s).output hmn).2, if_neg (fun h => hop h.1), List.append_nil]

/-- An unmapped opcode that is fetched is reported, and outputs nothing (R133, R134). -/
theorem unmappedInstr_events (c : Config) (op : Byte) (s : State) :
    (unmappedInstr c op s).out = s.out ∧
      (unmappedInstr c op s).reports = s.reports ++ if pcIncFaults c s.pc = false then [op] else [] := by
  unfold unmappedInstr
  cases hpc : pcIncFaults c s.pc with
  | true => simp [withFetch, hpc]
  | false => cases c.undefOp <;> simp [withFetch, hpc]

/-- Settles O42: a mapped opcode outputs exactly if its row is OUT's and reports nothing, any other byte is reported. -/
theorem eventsOfAStep : Obligations.EventsOfAStep := by
  intro s s' hboundary hstep
  cases hfields : opcodeFields (s.mem.read s.pc) with
  | none =>
    obtain rfl : unmappedInstr Config.chip (s.mem.read s.pc) s = s' :=
      Host.Outcome.next.inj ((step_unmapped hboundary hfields).symm.trans hstep)
    obtain ⟨hout, hreports⟩ := unmappedInstr_events Config.chip (s.mem.read s.pc) s
    have hnotOut : s.mem.read s.pc ≠ 0xFD := fun h => nomatch (h ▸ hfields : opcodeFields 0xFD = none)
    rw [hout, hreports, if_neg (fun h => hnotOut h.1), List.append_nil]
    simp
  | some row =>
    obtain ⟨mn, m⟩ := row
    obtain ⟨hop, hlegal⟩ := opcodeFields_eq_some hfields
    obtain rfl : rowEffect Config.chip mn m (s.mem.read (inc s.pc)) s = s' :=
      Host.Outcome.next.inj ((step_mapped hboundary hfields).symm.trans hstep)
    rw [rowEffect_out _ hlegal, (rowEffect_frame _ _ _ _ _).reports, hop]
    simp

/-! B is written before it is read (D8): a meaning that is given another B differs in B at most. -/

/-- On states that differ in B alone the results differ in B at most. -/
def BlindToB (f : State → State) : Prop := ∀ s b, { f { s with b := b } with b := (f s).b } = f s

theorem datumOf_with_b (c : Config) (m : AddrMode) (v b : Byte) (s : State) :
    datumOf c m v { s with b := b } = datumOf c m v s := by
  cases m <;> rfl

/-- The adders read the B they have just written, and no other operation reads it. -/
theorem mnemonicOperation_blind (mn : Mnemonic) (data : Byte) : BlindToB (mnemonicOperation mn data) := by
  intro s b
  cases mn <;> rfl

theorem withFetch_blind {rest : State → State} (h : BlindToB rest) (c : Config) (op : Byte) :
    BlindToB (fun s => withFetch c op s rest) := by
  intro s b
  dsimp only [withFetch]
  split_ifs
  · rfl
  · exact h (s.afterFetch c op) b

theorem withOperandFetch_blind {rest : State → State} (h : BlindToB rest) (c : Config) :
    BlindToB (fun s => withOperandFetch c s rest) := by
  intro s b
  dsimp only [withOperandFetch]
  split_ifs
  · rfl
  · exact h s.afterOperandFetch b

theorem endInstr_blind {f : State → State} (h : BlindToB f) : BlindToB (fun s => (f s).endInstr) :=
  fun s b => congrArg State.endInstr (h s b)

theorem rowEffect_blind (c : Config) (mn : Mnemonic) (m : AddrMode) (v : Byte) : BlindToB (rowEffect c mn m v) := by
  unfold rowEffect
  cases m.takesOperand with
  | true =>
    refine withFetch_blind (withOperandFetch_blind (endInstr_blind fun s b => ?_) c) c _
    rw [datumOf_with_b]
    exact mnemonicOperation_blind mn _ { s with mar := (datumOf c m v s).address } b
  | false => exact withFetch_blind (endInstr_blind (mnemonicOperation_blind mn v)) c _

theorem unmappedInstr_blind (c : Config) (op : Byte) : BlindToB (unmappedInstr c op) := by
  unfold unmappedInstr
  cases c.undefOp <;> exact withFetch_blind (fun _ _ => rfl) c op

/-- Settles O43: the bytes at PC are the same in both states, and what they stand for is blind to B. -/
theorem bNeverLeaksIntoTheRest : Obligations.BNeverLeaksIntoTheRest := by
  intro s s₁ b hboundary hstep
  have hboundary' : State.atBoundary { s with b := b } = true := hboundary
  cases hfields : opcodeFields (s.mem.read s.pc) with
  | none =>
    obtain rfl : unmappedInstr Config.chip (s.mem.read s.pc) s = s₁ :=
      Host.Outcome.next.inj ((step_unmapped hboundary hfields).symm.trans hstep)
    exact ⟨_, step_unmapped hboundary' hfields, unmappedInstr_blind _ _ s b⟩
  | some row =>
    obtain rfl : rowEffect Config.chip row.1 row.2 (s.mem.read (inc s.pc)) s = s₁ :=
      Host.Outcome.next.inj ((step_mapped hboundary hfields).symm.trans hstep)
    exact ⟨_, step_mapped hboundary' hfields, rowEffect_blind _ _ _ _ s b⟩

end Sys2Proof.Machine
end

section
/-! Where each instruction completes and where it faults (`41_load_arithmetic.md`, `42_control_output.md`,
`60_exceptions.md` section 4). -/

namespace Sys2Proof.Machine

/-! Completion: past the checks of its increments of PC an instruction is its fetches and its operation. -/

theorem withFetch_of_no_fault {c : Config} {s : State} (op : Byte) (rest : State → State)
    (hpc : pcIncFaults c s.pc = false) : withFetch c op s rest = rest (s.afterFetch c op) := by
  simp [withFetch, hpc]

theorem operandInstr_of_no_fault {c : Config} {s : State} (mn : Mnemonic) (m : AddrMode) (v : Byte)
    (operation : Byte → State → State) (hpc : pcIncFaults c s.pc = false) (hpc' : pcIncFaults c (inc s.pc) = false) :
    operandInstr c mn m v s operation =
      (operation (datumOf c m v (s.afterFetch c (opcodeByte mn m)).afterOperandFetch).value
        { (s.afterFetch c (opcodeByte mn m)).afterOperandFetch with
          mar := (datumOf c m v (s.afterFetch c (opcodeByte mn m)).afterOperandFetch).address }).endInstr := by
  simp [operandInstr, withFetch, withOperandFetch, hpc, hpc']

/-- Settles O24: the datum of each mode is loaded; the record's fields are those of the fetches by definition. -/
theorem ldaCompletes : Obligations.LdaCompletes := fun v _ hpc hpc' =>
  ⟨congrArg Host.Outcome.next (operandInstr_of_no_fault .lda .immediate v loadA hpc hpc'),
    congrArg Host.Outcome.next (operandInstr_of_no_fault .lda .absolute v loadA hpc hpc'),
    congrArg Host.Outcome.next (operandInstr_of_no_fault .lda .indirect v loadA hpc hpc')⟩

/-- Settles O25, as O24, with ADD's operation. -/
theorem addCompletes : Obligations.AddCompletes := fun v _ hpc hpc' =>
  ⟨congrArg Host.Outcome.next (operandInstr_of_no_fault .add .immediate v addToA hpc hpc'),
    congrArg Host.Outcome.next (operandInstr_of_no_fault .add .absolute v addToA hpc hpc'),
    congrArg Host.Outcome.next (operandInstr_of_no_fault .add .indirect v addToA hpc hpc')⟩

/-- Settles O26, as O24, with SUB's operation. -/
theorem subCompletes : Obligations.SubCompletes := fun v _ hpc hpc' =>
  ⟨congrArg Host.Outcome.next (operandInstr_of_no_fault .sub .immediate v subFromA hpc hpc'),
    congrArg Host.Outcome.next (operandInstr_of_no_fault .sub .absolute v subFromA hpc hpc'),
    congrArg Host.Outcome.next (operandInstr_of_no_fault .sub .indirect v subFromA hpc hpc')⟩

/-- Settles O27: as O24, once the branch shape says how deep each mode's target is read. -/
theorem jmpCompletes : Obligations.JmpCompletes := by
  intro v s
  change _ → _ → Host.Outcome.next (jmp Config.chip .absoluteBranching v s) = _ ∧
    Host.Outcome.next (jmp Config.chip .indirectBranching v s) = _
  generalize Config.chip = c
  obtain ⟨undefOp, pcOverflow, shape⟩ := c
  intro hpc hpc'
  have habsolute := operandInstr_of_no_fault .jmp .absoluteBranching v jumpTo hpc hpc'
  have hindirect := operandInstr_of_no_fault .jmp .indirectBranching v jumpTo hpc hpc'
  cases shape with
  | operand => exact ⟨congrArg Host.Outcome.next habsolute, congrArg Host.Outcome.next hindirect⟩
  | fetched => exact ⟨congrArg Host.Outcome.next habsolute, congrArg Host.Outcome.next hindirect⟩

/-- Settles O28: OUT is its fetch and `O <- A` with the event. -/
theorem outCompletes : Obligations.OutCompletes := fun _ hpc =>
  congrArg Host.Outcome.next (withFetch_of_no_fault _ _ hpc)

/-- Settles O29: NOP is its fetch. -/
theorem nopCompletes : Obligations.NopCompletes := fun _ hpc =>
  congrArg Host.Outcome.next (withFetch_of_no_fault _ _ hpc)

/-- Settles O30: HLT is its fetch and the halt flag, and a halted machine that is not faulted never moves. -/
theorem hltCompletes : Obligations.HltCompletes := fun _ hpc =>
  ⟨_, congrArg Host.Outcome.next (withFetch_of_no_fault _ _ hpc), rfl, fun hfault =>
    run_of_fixed (M := Sys2Proof.core) (step_of_final (final_iff.mpr ⟨rfl, hfault⟩))⟩

/-! The top of memory. -/

theorem rowEffect_of_fetch_fault {c : Config} {s : State} (mn : Mnemonic) (m : AddrMode) (v : Byte)
    (hpc : pcIncFaults c s.pc = true) : rowEffect c mn m v s = s.raise .pcOverflow := by
  obtain ⟨-, h⟩ | ⟨hpc', -⟩ | ⟨hpc', -⟩ := rowEffect_cases c mn m v s
  · exact h
  · exact absurd (hpc'.symm.trans hpc) Bool.false_ne_true
  · exact absurd (hpc'.symm.trans hpc) Bool.false_ne_true

theorem rowEffect_of_operandFetch_fault {c : Config} {s : State} (mn : Mnemonic) {m : AddrMode} (v : Byte)
    (hoperand : m.takesOperand = true) (hpc : pcIncFaults c s.pc = false) (hpc' : pcIncFaults c (inc s.pc) = true) :
    rowEffect c mn m v s = (s.afterFetch c (opcodeByte mn m)).raise .pcOverflow := by
  rw [rowEffect_of_operand c v s hoperand]
  simp [operandInstr, withFetch, withOperandFetch, hpc, hpc']

/-- Settles O31: at 0xFF the increment of fetch T0 faults unless PC wraps. -/
theorem execAtTopOfMemoryFaultsOrWraps : Obligations.ExecAtTopOfMemoryFaultsOrWraps := by
  intro i s hpc
  cases hover : Config.chip.pcOverflow with
  | wrap => exact .inr rfl
  | fault =>
    rw [exec_eq_rowEffect, rowEffect_of_fetch_fault _ _ _ (pcIncFaults_iff.mpr ⟨hpc, hover⟩)]
    exact .inl rfl

/-- An encoding is one byte long, and a second one where the mode takes an operand. -/
theorem encode_length (i : Instr) : (encode i).length = if i.form.mode.takesOperand then 2 else 1 := by
  rw [encode_of_instrOfRow (instrOfRow_form i)]
  cases i.form.mode.takesOperand <;> rfl

/-- A 1-byte instruction that is fetched keeps the fault field and moves PC one on. -/
theorem rowEffect_one_byte {c : Config} {s : State} {mn : Mnemonic} {m : AddrMode} (v : Byte)
    (hlegal : m ∈ mn.legalModes) (himplied : m.takesOperand = false) (hpc : pcIncFaults c s.pc = false) :
    (rowEffect c mn m v s).fault = s.fault ∧ (rowEffect c mn m v s).pc = inc s.pc := by
  obtain ⟨rfl, rfl | rfl | rfl⟩ := impliedRow_cases mn m hlegal himplied <;>
    rw [rowEffect_implied, withFetch_of_no_fault _ _ hpc] <;> exact ⟨rfl, rfl⟩

/-- Settles O32: at 0xFE the first increment of PC is in range, and a 2-byte instruction makes a second one at 0xFF. -/
theorem operandFetchFaultKeepsTheFetch : Obligations.OperandFetchFaultKeepsTheFetch := by
  intro i s hpc
  have hfetch : pcIncFaults Config.chip s.pc = false := pcIncFaults_eq_false_of_ne _ (by rw [hpc]; decide)
  rw [encode_length, exec_eq_rowEffect]
  cases hm : i.form.mode.takesOperand with
  | true =>
    refine ⟨fun _ => ?_, fun h => absurd h (by decide)⟩
    cases hover : Config.chip.pcOverflow with
    | wrap => exact .inr rfl
    | fault =>
      have hoperand : pcIncFaults Config.chip (inc s.pc) = true :=
        pcIncFaults_iff.mpr ⟨inc_eq_top_iff.mpr hpc, hover⟩
      rw [rowEffect_of_operandFetch_fault _ _ hm hfetch hoperand, State.afterFetch, hpc]
      exact .inl rfl
  | false =>
    refine ⟨fun h => absurd h (by decide), fun _ => ⟨_, rfl, ?_⟩⟩
    rw [← inc_eq_top_iff.mpr hpc]
    exact rowEffect_one_byte _ (form_mode_legal i) hm hfetch

end Sys2Proof.Machine
end

section
/-! The built opcode table, the microcode listing, T-states with an idle bus or with HALT, and the admission of a load
(`30_encoding.md` section 4, `40_sequencer.md` sections 2 and 5, `70_reset_and_hazards.md` section 3). -/

namespace Sys2Proof.Machine

/-- The opcode bytes of the built table, by mnemonic: no parameter has a part in them. -/
theorem opcodeTable_opcodes (c : Config) :
    (opcodeTable c).map Prod.fst =
      [0x20, 0x00, 0x10, 0x21, 0x01, 0x11, 0x22, 0x02, 0x12, 0x33, 0x43, 0xFD, 0xFE, 0xFF] := rfl

theorem opcodeTable_opcodes_nodup (c : Config) : ((opcodeTable c).map Prod.fst).Nodup := by
  rw [opcodeTable_opcodes]
  decide

/-- Settles O3: the table's opcodes are the 14 of the listing, and these differ. -/
theorem opcodeTableHasNoCollision : Obligations.OpcodeTableHasNoCollision := fun c =>
  ⟨rfl, decide_eq_true (opcodeTable_opcodes_nodup c), opcodeTable_opcodes_nodup c⟩

/-- JMP's microprograms in the two branch shapes (R107, R108). -/
theorem executeOps_jmp_absolute (c : Config) :
    executeOps c .jmp .absoluteBranching =
      match c.branchShape with
      | .operand => [opFetch, memToPc]
      | .fetched => [opFetch, memToMar, memToPc] := by
  unfold executeOps modeOps
  cases c.branchShape <;> rfl

theorem executeOps_jmp_indirect (c : Config) :
    executeOps c .jmp .indirectBranching =
      match c.branchShape with
      | .operand => [opFetch, memToMar, memToPc]
      | .fetched => [opFetch, memToMar, memToMar, memToPc] := by
  unfold executeOps modeOps
  cases c.branchShape <;> rfl

/-- Settles O5: the rows of the listing, the default for every byte outside them, and the longest list. -/
theorem microcodeListing : Obligations.MicrocodeListing := fun c =>
  ⟨rfl, rfl, rfl, rfl, rfl, rfl, rfl, rfl, rfl, congrArg (·, false) (executeOps_jmp_absolute c),
    congrArg (·, false) (executeOps_jmp_indirect c), rfl, rfl, rfl,
    fun _ hop => dispatch_unmapped c (opcodeFields_eq_none_of_notMem hop), dispatch_length_le c⟩

/-! Nothing on the bus: no latch takes anything (R86, R87). -/

@[simp] theorem latch_none (signal : Bool) (old : Byte) : latch signal none old = old := by cases signal <;> rfl

@[simp] theorem latchMemory_none (signal : Bool) (s : State) : latchMemory signal none s = s.mem := by
  cases signal <;> rfl

@[simp] theorem emitted_none (signal : Bool) : emitted signal none = [] := by cases signal <;> rfl

/-- Settles O11: the sequencer's advance keeps what the clock edge leaves, and that edge has nothing to latch. -/
theorem idleBusLeavesRegisters : Obligations.IdleBusLeavesRegisters := by
  intro c s s' cw hrun hword hbus hstep hs'
  obtain ⟨-, rfl⟩ := stepT_completed_under hrun hword hstep hs'
  obtain ⟨ha, hb, hmar, hi, -, ho, hmem, -, -, hout⟩ := advance_frame c (clock cw (busOf cw s) s)
  rw [ha, hb, hmar, hi, ho, hmem, hout, hbus]
  simp

/-! HALT in the control word (R89, R92). -/

theorem nextPc_of_halt {cw : ControlWord} (h : cw.halt = true) (bus : Option Byte) (pc : Byte) :
    nextPc cw bus pc = pc := by
  rw [nextPc, if_pos h]

/-- Settles O13: the clock edge of a running machine sets the flag exactly under HALT and keeps PC then, and a halted machine
that is not faulted is a fixed point. -/
theorem haltIsSticky : Obligations.HaltIsSticky := by
  intro c s s' cw hrun hword hstep hs'
  obtain ⟨hhalted, -⟩ := running_iff.mp hrun
  obtain ⟨-, rfl⟩ := stepT_completed_under hrun hword hstep hs'
  obtain ⟨-, -, -, -, hpc, -, -, hhalted', -⟩ := advance_frame c (clock cw (busOf cw s) s)
  rw [clock_halted, hhalted, Bool.false_or] at hhalted'
  exact ⟨hhalted', fun hhalt =>
    ⟨hpc.trans (nextPc_of_halt hhalt _ _), fun c' => stepT_of_final c' (final_iff.mpr ⟨hhalted'.trans hhalt, hs'⟩)⟩⟩

/-! The moves of the host (R158, R159). -/

theorem hostMove_load (program : List Int) (session : Session) :
    hostMove (.load program) session =
      if session.fresh then .next (loadAnswer (loadProgram program session.machine))
      else .refused .loadNotAfterReset := rfl

/-- An answered step leaves the state it answers, in a session that is not right after a reset. -/
theorem stepAnswer_eq_next {before : State} {o : Host.Outcome State Fault Refusal} {answer : Answer}
    (h : stepAnswer before o = .next answer) :
    ∃ after, o = .next after ∧ answer.session = { machine := after, fresh := false } := by
  cases o with
  | next after => cases h; exact ⟨after, rfl, rfl⟩
  | fault k => cases h
  | refused r => cases h

/-- What each answered move leaves of the session. -/
theorem hostMove_session {move : HostMove} {session : Session} {answer : Answer}
    (h : hostMove move session = .next answer) :
    match move with
    | .reset => answer.session = { machine := State.reset, fresh := true }
    | .load program =>
      session.fresh = true ∧ answer.session = { machine := loadProgram program session.machine, fresh := false }
    | .stepT =>
      ∃ after, stepT Config.chip session.machine = .next after ∧ answer.session = { machine := after, fresh := false }
    | .stepInstr => ∃ after, step session.machine = .next after ∧ answer.session = { machine := after, fresh := false }
    | .bulkRead => answer.session = session := by
  cases move with
  | reset => cases h; rfl
  | load program =>
    rw [hostMove_load] at h
    split_ifs at h with hfresh
    cases h
    exact ⟨hfresh, rfl⟩
  | stepT => exact stepAnswer_eq_next h
  | stepInstr => exact stepAnswer_eq_next h
  | bulkRead => cases h; rfl

/-- Settles O50: a reset sets the bit, a bulk read keeps the session, every other answered move clears the bit. -/
theorem loadOnlyRightAfterReset : Obligations.LoadOnlyRightAfterReset := by
  intro session program
  refine ⟨fun hfresh => by simp [hostMove_load, hfresh], fun hfresh => by simp [hostMove_load, hfresh],
    fun move answer h => ?_⟩
  have hsession := hostMove_session h
  cases move with
  | reset => simp [hsession]
  | load _ => simp [hsession]
  | stepT =>
    obtain ⟨_, -, hleft⟩ := hsession
    simp [hleft]
  | stepInstr =>
    obtain ⟨_, -, hleft⟩ := hsession
    simp [hleft]
  | bulkRead => simp [hsession]

end Sys2Proof.Machine
end

section
/-! The shape of a microprogram (`40_sequencer.md` R103 to R109): where its increment of PC and its HALT can stand, and what no
word of it does. -/

namespace Sys2Proof.Machine

/-- A mode's micro-ops are none, or the operand fetch and some reads into MAR. -/
theorem modeOps_eq (c : Config) (m : AddrMode) :
    modeOps c m = [] ∨ ∃ reads, modeOps c m = opFetch :: List.replicate reads memToMar := by
  unfold modeOps
  cases m with
  | implied => exact .inl rfl
  | immediate => exact .inr ⟨0, rfl⟩
  | absolute => exact .inr ⟨1, rfl⟩
  | indirect => exact .inr ⟨2, rfl⟩
  | absoluteBranching =>
    cases c.branchShape with
    | operand => exact .inr ⟨0, rfl⟩
    | fetched => exact .inr ⟨1, rfl⟩
  | indirectBranching =>
    cases c.branchShape with
    | operand => exact .inr ⟨1, rfl⟩
    | fetched => exact .inr ⟨2, rfl⟩

theorem modeOps_halt (c : Config) (m : AddrMode) : ∀ cw ∈ modeOps c m, cw.halt = false := by
  intro cw hcw
  obtain h | ⟨reads, h⟩ := modeOps_eq c m
  · exact absurd (h ▸ hcw) List.not_mem_nil
  · obtain rfl | hread := List.mem_cons.mp (h ▸ hcw)
    · rfl
    · rw [List.eq_of_mem_replicate hread]; rfl

theorem opOps_halt {mn : Mnemonic} (hmn : mn ≠ .hlt) : ∀ cw ∈ opOps mn, cw.halt = false := by
  cases mn with
  | hlt => exact absurd rfl hmn
  | lda | add | sub | jmp | out | nop => decide

/-- HALT stands alone in its microprogram: the one of HLT and of the default `halt`. -/
theorem dispatch_halt_cases (c : Config) (op : Byte) :
    (dispatch c op).1 = [haltW] ∨ ∀ cw ∈ (dispatch c op).1, cw.halt = false := by
  obtain ⟨mn, m, hlegal, -, hrow⟩ | ⟨-, hdefault⟩ := dispatch_cases c op
  · rw [hrow]
    by_cases hmn : mn = .hlt
    · subst hmn
      obtain rfl : m = .implied := List.mem_singleton.mp hlegal
      exact .inl rfl
    · exact .inr fun cw hcw => (List.mem_append.mp hcw).elim (modeOps_halt c m cw) (opOps_halt hmn cw)
  · rw [hdefault]
    unfold defaultOps
    cases c.undefOp with
    | nop => exact .inr fun _ h => absurd h List.not_mem_nil
    | halt => exact .inl rfl

/-- Only the first word of a microprogram increments PC: it is the operand fetch. -/
theorem dispatch_tail_incPc (c : Config) (op : Byte) : ∀ cw ∈ (dispatch c op).1.tail, cw.incPc = false := by
  obtain ⟨mn, m, -, -, hrow⟩ | ⟨-, hdefault⟩ := dispatch_cases c op
  · have hops : ∀ cw ∈ opOps mn, cw.incPc = false := by cases mn <;> decide
    rw [hrow]
    intro cw hcw
    obtain h | ⟨reads, h⟩ := modeOps_eq c m
    · rw [executeOps, h] at hcw
      exact hops cw (List.mem_of_mem_tail hcw)
    · rw [executeOps, h] at hcw
      obtain hread | hop := List.mem_append.mp hcw
      · rw [List.eq_of_mem_replicate hread]; rfl
      · exact hops cw hop
  · rw [hdefault]
    unfold defaultOps
    cases c.undefOp <;> exact fun _ h => absurd h List.not_mem_nil

/-- No word of R83 stores, and none of an execute microprogram writes I. -/
theorem named_words_latchMem : ∀ cw ∈ fetch0 :: fetch1 :: executeWords, cw.latchMem = false := by decide

theorem executeWords_latchI : ∀ cw ∈ executeWords, cw.latchI = false := by decide

/-- A word of R83 can only raise PcOverflow (R93). -/
theorem tStateFault_of_named (c : Config) (s : State) {cw : ControlWord} (hnamed : cw ∈ fetch0 :: fetch1 :: executeWords) :
    tStateFault c cw s = if cw.incPc && !cw.halt && pcIncFaults c s.pc then some .pcOverflow else none := by
  obtain ⟨hone, hdata, hlegal⟩ := named_words_meet_no_early_condition cw hnamed
  rw [tStateFault, drivers_length, if_neg (by omega), if_neg, if_neg]
  · exact fun h => hlegal (illegalControlWord_iff.mp h)
  · intro h
    obtain ⟨hlatch, hnone⟩ := latchWithoutData_iff.mp h
    have hlength := hdata hlatch
    rw [hnone] at hlength
    exact absurd hlength (by decide)

theorem fault_eq_pcOverflow_of_named {c : Config} {s : State} {cw : ControlWord} {k : Fault}
    (hnamed : cw ∈ fetch0 :: fetch1 :: executeWords) (h : tStateFault c cw s = some k) : k = .pcOverflow := by
  rw [tStateFault_of_named c s hnamed] at h
  split_ifs at h
  cases h
  rfl

end Sys2Proof.Machine
end

section
/-! The invariant of a run (`10_state.md` sections 4 and 7): every T-state keeps it, so the loop of them, the step and the
host's moves do. -/

namespace Sys2Proof.Machine

theorem latch_false (bus : Option Byte) (old : Byte) : latch false bus old = old := by cases bus <;> rfl

theorem latchMemory_false (bus : Option Byte) (s : State) : latchMemory false bus s = s.mem := by cases bus <;> rfl

/-! One T-state under a word of the table. -/

theorem tState_mem (c : Config) (s : State) {cw : ControlWord} (hnamed : cw ∈ fetch0 :: fetch1 :: executeWords) :
    (tState c cw s).mem = s.mem := by
  obtain ⟨k, -, h⟩ | ⟨-, h⟩ := tState_cases c cw s
  · rw [h, State.raise_mem]
  · obtain ⟨-, -, -, -, -, -, hmem, -⟩ := advance_frame c (clock cw (busOf cw s) s)
    rw [h, hmem, clock_mem, named_words_latchMem cw hnamed, latchMemory_false]

/-- During execution no opcode is fetched, decoded or reported (R114). -/
theorem tState_execute_frame (c : Config) {s : State} {cw : ControlWord} (hword : cw ∈ executeWords) (ht : 2 ≤ s.t) :
    (tState c cw s).i = s.i ∧ (tState c cw s).dec = s.dec ∧ (tState c cw s).reports = s.reports := by
  obtain ⟨k, -, h⟩ | ⟨-, h⟩ := tState_cases c cw s
  · rw [h]
    exact ⟨rfl, rfl, rfl⟩
  · obtain ⟨n, hn⟩ : ∃ n, s.t = n + 2 := ⟨s.t - 2, by omega⟩
    rw [h, advance_execute c (s := clock cw (busOf cw s) s) hn]
    exact ⟨by simp [executeWords_latchI cw hword, latch_false], rfl, rfl⟩

/-! The current word of a state with the invariant. -/

section
variable {c : Config} {s : State}

/-- In the fetch it is a fetch word, and after it a word of the microprogram that I dispatches to. -/
theorem currentWord_cases (hinv : s.Inv c) :
    (s.t = 0 ∧ currentWord s = some fetch0) ∨ (s.t = 1 ∧ currentWord s = some fetch1) ∨
      ∃ n cw, s.t = n + 2 ∧ currentWord s = some cw ∧ (dispatch c s.i).1[n]? = some cw := by
  match ht : s.t with
  | 0 => exact .inl ⟨rfl, currentWord_of_t_eq_zero ht⟩
  | 1 => exact .inr (.inl ⟨rfl, currentWord_of_t_eq_one ht⟩)
  | n + 2 =>
    obtain ⟨hdec, hindex⟩ := hinv.decoded (by omega)
    rw [hdec] at hindex
    have hget : (dispatch c s.i).1[n]? = some ((dispatch c s.i).1[n]'(by omega)) := List.getElem?_eq_getElem _
    exact .inr (.inr ⟨n, _, rfl, by rw [← hget, ← hdec]; simp [currentWord, ht], hget⟩)

theorem exists_currentWord (hinv : s.Inv c) :
    ∃ cw, currentWord s = some cw ∧ cw ∈ fetch0 :: fetch1 :: executeWords := by
  obtain ⟨-, h⟩ | ⟨-, h⟩ | ⟨n, cw, -, h, hget⟩ := currentWord_cases hinv
  · exact ⟨fetch0, h, by decide⟩
  · exact ⟨fetch1, h, by decide⟩
  · exact ⟨cw, h, List.mem_cons_of_mem _
      (List.mem_cons_of_mem _ (dispatch_subset_executeWords c s.i (List.mem_of_getElem? hget)))⟩

theorem currentWord_named (hinv : s.Inv c) {cw : ControlWord} (hword : currentWord s = some cw) :
    cw ∈ fetch0 :: fetch1 :: executeWords := by
  obtain ⟨cw', hword', hnamed⟩ := exists_currentWord hinv
  exact Option.some.inj (hword'.symm.trans hword) ▸ hnamed

theorem currentWord_execute (hinv : s.Inv c) {cw : ControlWord} (hword : currentWord s = some cw) (ht : 2 ≤ s.t) :
    cw ∈ executeWords := by
  obtain ⟨h, -⟩ | ⟨h, -⟩ | ⟨n, cw', -, hword', hget⟩ := currentWord_cases hinv
  · omega
  · omega
  · exact dispatch_subset_executeWords c s.i
      (List.mem_of_getElem? (Option.some.inj (hword'.symm.trans hword) ▸ hget))

/-- A word with HALT is the last one of its microprogram, so the machine halts at a boundary (R112). -/
theorem halt_at_last_index (hinv : s.Inv c) {cw : ControlWord} (hword : currentWord s = some cw)
    (hhalt : cw.halt = true) : 2 ≤ s.t ∧ s.t = s.dec.length + 1 := by
  obtain ⟨-, h⟩ | ⟨-, h⟩ | ⟨n, cw', ht, h, hget⟩ := currentWord_cases hinv
  · obtain rfl := Option.some.inj (h.symm.trans hword)
    cases hhalt
  · obtain rfl := Option.some.inj (h.symm.trans hword)
    cases hhalt
  · obtain rfl := Option.some.inj (h.symm.trans hword)
    obtain hops | hnone := dispatch_halt_cases c s.i
    · rw [(hinv.decoded (by omega)).1, hops]
      have hn := (List.getElem?_eq_some_iff.mp hget).1
      rw [hops, List.length_singleton] at hn
      exact ⟨by omega, by rw [List.length_singleton]; omega⟩
    · exact absurd (hnone cw' (List.mem_of_getElem? hget)) (by simp [hhalt])

/-! The two ways a T-state ends. -/

theorem raise_inv (hinv : s.Inv c) (hrun : s.running = true) : (s.raise .pcOverflow).Inv c where
  memory := hinv.memory
  index := hinv.index
  short := hinv.short
  decoded := hinv.decoded
  haltAtBoundary := hinv.haltAtBoundary
  haltedOrFaulted h := absurd ((running_iff.mp hrun).1.symm.trans h) Bool.false_ne_true
  kinds _ hk := .inl (Option.some.inj hk).symm

/-- Before the decode of fetch T1 a machine that is not halted has the invariant if its memory, `dec` and fault field do. -/
theorem inv_of_fetching (ht : s.t ≤ 1) (hhalted : s.halted = false) (hmem : s.mem.wf = true) (hshort : s.dec.length ≤ 5)
    (hkinds : ∀ k, s.fault = some k → k = .pcOverflow ∨ k = .loadAddressOutOfRange ∨ k = .loadValueOutOfRange) :
    s.Inv c where
  memory := hmem
  index := by omega
  short := hshort
  decoded h := absurd h (by omega)
  haltAtBoundary h := absurd (hhalted.symm.trans h) Bool.false_ne_true
  haltedOrFaulted h := absurd (hhalted.symm.trans h) Bool.false_ne_true
  kinds := hkinds

/-- The sequencer's advance restores the invariant after a clock edge that halted the machine at the last word or not at
all. -/
theorem advance_inv (hmem : s.mem.wf = true) (hshort : s.dec.length ≤ 5)
    (hdecoded : 2 ≤ s.t → s.dec = (dispatch c s.i).1 ∧ s.t ≤ s.dec.length + 1)
    (hhalt : s.halted = true → 2 ≤ s.t ∧ s.t = s.dec.length + 1) (hfault : s.fault = none) : (advance c s).Inv c := by
  match ht : s.t with
  | 0 =>
    rw [advance_zero c ht]
    have hnotHalted : s.halted = false := eq_false_of_ne_true fun h => absurd (hhalt h).1 (by omega)
    exact inv_of_fetching (Nat.le_refl 1) hnotHalted hmem hshort (fun _ hk => nomatch hfault.symm.trans hk)
  | 1 =>
    rw [advance_one c ht]
    exact
      { memory := hmem
        index := by dsimp only; split_ifs <;> decide
        short := dispatch_length_le c s.i
        decoded := fun h => by
          refine ⟨rfl, ?_⟩
          dsimp only at h ⊢
          split_ifs at h ⊢ with hempty
          · exact absurd h (by decide)
          · have := List.length_pos_iff.mpr (fun h => hempty (List.isEmpty_iff.mpr h))
            omega
        haltAtBoundary := fun h => absurd (hhalt h).1 (by omega)
        haltedOrFaulted := fun _ => hfault
        kinds := fun _ hk => nomatch hfault.symm.trans hk }
  | n + 2 =>
    obtain ⟨hdec, hindex⟩ := hdecoded (by omega)
    rw [advance_execute c ht]
    exact
      { memory := hmem
        index := by dsimp only; split_ifs <;> omega
        short := hshort
        decoded := fun _ => ⟨hdec, by dsimp only; split_ifs <;> omega⟩
        haltAtBoundary := fun h => by
          have hlast := (hhalt h).2
          exact if_pos (by omega)
        haltedOrFaulted := fun _ => hfault
        kinds := fun _ hk => nomatch hfault.symm.trans hk }

theorem tState_inv (hinv : s.Inv c) (hrun : s.running = true) {cw : ControlWord} (hword : currentWord s = some cw) :
    (tState c cw s).Inv c := by
  obtain ⟨hhalted, hfault⟩ := running_iff.mp hrun
  have hnamed := currentWord_named hinv hword
  obtain ⟨k, hk, h⟩ | ⟨-, h⟩ := tState_cases c cw s
  · rw [h, fault_eq_pcOverflow_of_named hnamed hk]
    exact raise_inv hinv hrun
  · rw [h]
    refine advance_inv ?_ hinv.short (fun ht => ?_) (fun hhalt => ?_) hfault
    · rw [clock_mem, named_words_latchMem cw hnamed, latchMemory_false]
      exact hinv.memory
    · rw [clock_i, executeWords_latchI cw (currentWord_execute hinv hword ht), latch_false]
      exact hinv.decoded ht
    · rw [clock_halted, hhalted, Bool.false_or] at hhalt
      rw [clock_t, clock_dec]
      exact halt_at_last_index hinv hword hhalt

end

/-! The T-state step. -/

section
variable {c : Config} {s s' : State}

/-- A T-state step of a state with the invariant stays where it is, or is a T-state under a word of the table. -/
theorem stepT_cases_of_inv (hinv : s.Inv c) (hstep : stepT c s = .next s') :
    s' = s ∨ ∃ cw, s.running = true ∧ currentWord s = some cw ∧ cw ∈ fetch0 :: fetch1 :: executeWords ∧
      s' = tState c cw s := by
  obtain ⟨k, -, h⟩ | ⟨-, -, h⟩ | ⟨hfault, hhalted, cw, hword, h⟩ | ⟨-, -, -, h⟩ := stepT_cases c s
  · rw [h] at hstep; cases hstep
  · rw [h] at hstep; cases hstep; exact .inl rfl
  · rw [h] at hstep; cases hstep
    exact .inr ⟨cw, running_iff.mpr ⟨hhalted, hfault⟩, hword, currentWord_named hinv hword, rfl⟩
  · rw [h] at hstep; cases hstep

theorem stepT_inv (hinv : s.Inv c) (hstep : stepT c s = .next s') : s'.Inv c := by
  obtain rfl | ⟨cw, hrun, hword, -, rfl⟩ := stepT_cases_of_inv hinv hstep
  · exact hinv
  · exact tState_inv hinv hrun hword

/-- A running machine with the invariant is never refused a T-state. -/
theorem stepT_answers (hinv : s.Inv c) (hrun : s.running = true) : ∃ s', stepT c s = .next s' := by
  obtain ⟨cw, hword, -⟩ := exists_currentWord hinv
  exact ⟨_, stepT_of_running c hrun hword⟩

theorem stepT_mem (hinv : s.Inv c) (hstep : stepT c s = .next s') : s'.mem = s.mem := by
  obtain rfl | ⟨cw, -, -, hnamed, rfl⟩ := stepT_cases_of_inv hinv hstep
  · rfl
  · exact tState_mem c s hnamed

end

/-- Settles O44: the reset state is at index 0, with nothing listed, decoded or recorded. -/
theorem resetHasTheInvariant : Obligations.ResetHasTheInvariant := fun _ =>
  inv_of_fetching (Nat.zero_le 1) rfl Memory.wf_nil (Nat.zero_le 5) (fun _ h => nomatch h)

/-- Settles O46: a T-state under the current word ends in a fault or in the sequencer's advance, and both have it. -/
theorem tStateKeepsTheInvariant : Obligations.TStateKeepsTheInvariant := by
  intro c s hinv
  refine ⟨fun _ hstep => stepT_inv hinv hstep, fun hrun => ?_⟩
  obtain ⟨s', hstep⟩ := stepT_answers hinv hrun
  exact ⟨s', hstep, stepT_inv hinv hstep⟩

/-! The loop of T-states. -/

/-- A loop that answers has answered its first T-state. -/
theorem exists_stepT_of_runTStates {c : Config} {n : Nat} {s s' : State} (h : runTStates c (n + 1) s = .next s') :
    ∃ s₁, stepT c s = .next s₁ := by
  cases h₁ : stepT c s with
  | next s₁ => exact ⟨s₁, rfl⟩
  | fault k => simp [runTStates, h₁] at h
  | refused r => simp [runTStates, h₁] at h

/-- What every T-state keeps, the loop keeps. -/
theorem runTStates_keeps {c : Config} {P : State → Prop} (hstep : ∀ s s', P s → stepT c s = .next s' → P s') {n : Nat}
    {s s' : State} (hs : P s) (h : runTStates c n s = .next s') : P s' := by
  induction n generalizing s with
  | zero => cases h; exact hs
  | succ n ih =>
    obtain ⟨s₁, h₁⟩ := exists_stepT_of_runTStates h
    rw [runTStates_succ h₁] at h
    split_ifs at h
    · exact ih (hstep s s₁ hs h₁) h
    · cases h
      exact hstep s _ hs h₁

theorem runTStates_inv {c : Config} {n : Nat} {s s' : State} (hinv : s.Inv c) (h : runTStates c n s = .next s') :
    s'.Inv c :=
  runTStates_keeps (fun _ _ => stepT_inv) hinv h

theorem runTStates_mem {c : Config} {n : Nat} {s s' : State} (hinv : s.Inv c) (h : runTStates c n s = .next s') :
    s'.mem = s.mem :=
  (runTStates_keeps (P := fun x => x.Inv c ∧ x.mem = s.mem)
    (fun _ _ ⟨hx, hmem⟩ hstep => ⟨stepT_inv hx hstep, (stepT_mem hx hstep).trans hmem⟩) ⟨hinv, rfl⟩ h).2

/-- Settles O45: the step is the loop of T-states, each of which keeps it. -/
theorem stepKeepsTheInvariant : Obligations.StepKeepsTheInvariant := fun s _ hinv hstep =>
  runTStates_inv hinv ((stepIsTheMicrocodeLoop s).symm.trans hstep)

/-- Settles O41: no word of the table latches memory. -/
theorem noStepWritesMemory : Obligations.NoStepWritesMemory := by
  intro c s s' hinv hstep a
  rw [hstep.elim (stepT_mem hinv) (runTStates_mem hinv)]

/-! The host's moves. -/

/-- A load of the reset state leaves canonical memory, one of its two faults at most, and the rest of the reset state. -/
theorem loadProgram_reset_inv (c : Config) (program : List Int) : (loadProgram program State.reset).Inv c := by
  have hwf : (loadProgram program State.reset).mem.wf = true := loadFrom_wf program 0 Memory.wf_nil
  have hfault := loadFrom_fault program 0 State.reset
  rw [loadProgram, loadFrom_frame]
  refine inv_of_fetching (Nat.zero_le 1) rfl hwf (Nat.zero_le 5) (fun k hk => .inr ?_)
  obtain h | h | h := hfault
  · exact nomatch h.symm.trans hk
  · exact .inl (Option.some.inj (hk.symm.trans h))
  · exact .inr (Option.some.inj (hk.symm.trans h))

/-- Settles O47: a reset and a load start from the reset state, the steps keep the invariant, a bulk read keeps the session. -/
theorem everyHostMoveKeepsTheInvariant : Obligations.EveryHostMoveKeepsTheInvariant := by
  intro move session answer hinv hfresh h
  have hsession := hostMove_session h
  cases move with
  | reset =>
    rw [hsession]
    exact ⟨resetHasTheInvariant _, fun _ => rfl⟩
  | load program =>
    obtain ⟨hadmitted, hsession⟩ := hsession
    rw [hsession, hfresh hadmitted]
    exact ⟨loadProgram_reset_inv _ program, fun h => nomatch h⟩
  | stepT =>
    obtain ⟨after, hstep, hsession⟩ := hsession
    rw [hsession]
    exact ⟨stepT_inv hinv hstep, fun h => nomatch h⟩
  | stepInstr =>
    obtain ⟨after, hstep, hsession⟩ := hsession
    rw [hsession]
    exact ⟨stepKeepsTheInvariant _ _ hinv hstep, fun h => nomatch h⟩
  | bulkRead =>
    rw [hsession]
    exact ⟨hinv, hfresh⟩

end Sys2Proof.Machine
end

section
/-! The loop of T-states on a running machine with the invariant (`40_sequencer.md` R111 to R114): it ends the instruction within
its bound, and from the middle of one it fetches nothing. -/

namespace Sys2Proof.Machine

section
variable {c : Config} {s s' : State}

/-- An unfaulted T-state ends the instruction or moves the index one on (R101). -/
theorem stepT_index (hrun : s.running = true) (hstep : stepT c s = .next s') (hs' : s'.fault = none) :
    s'.t = 0 ∨ s'.t = s.t + 1 := by
  obtain ⟨hzero, hone, hexecute⟩ := sequencerAdvances c s s' hrun hstep hs'
  match ht : s.t with
  | 0 => exact .inr (hzero ht).1
  | 1 =>
    rw [(hone ht).2]
    split_ifs
    · exact .inl rfl
    · exact .inr rfl
  | n + 2 =>
    rw [(hexecute (by omega)).2, ht]
    split_ifs
    · exact .inl rfl
    · exact .inr rfl

/-- In the middle of an instruction a machine with the invariant is not halted. -/
theorem running_of_inv (hinv : s.Inv c) (hfault : s.fault = none) (ht : s.t ≠ 0) : s.running = true :=
  running_iff.mpr ⟨eq_false_of_ne_true fun h => ht (hinv.haltAtBoundary h), hfault⟩

/-- With fuel up to the last index there is, the loop stops at a boundary or a fault. -/
theorem runTStates_ends {n : Nat} (hinv : s.Inv c) (hrun : s.running = true) (hfuel : 7 ≤ s.t + n) :
    ∃ s', runTStates c n s = .next s' ∧ (s'.t = 0 ∨ s'.fault ≠ none) := by
  induction n generalizing s with
  | zero => exact absurd hinv.index (by omega)
  | succ n ih =>
    obtain ⟨s₁, hstep⟩ := stepT_answers hinv hrun
    rw [runTStates_succ hstep]
    by_cases hfault : s₁.fault = none
    · obtain ht | ht := stepT_index hrun hstep hfault
      · exact ⟨s₁, by simp [ht], .inl ht⟩
      · have hne : s₁.t ≠ 0 := by omega
        have hinv₁ := stepT_inv hinv hstep
        simpa [hfault, hne] using ih hinv₁ (running_of_inv hinv₁ hfault hne) (by omega)
    · exact ⟨s₁, by simp [hfault], .inr hfault⟩

/-- What the T-states of one instruction's execution leave: I, `dec`, the reports, and no fault but PcOverflow. -/
structure ExecuteFrame (s s' : State) : Prop where
  i : s'.i = s.i
  dec : s'.dec = s.dec
  reports : s'.reports = s.reports
  fault : s'.fault = none ∨ s'.fault = some .pcOverflow

theorem ExecuteFrame.trans {s₁ : State} (h : ExecuteFrame s s₁) (h' : ExecuteFrame s₁ s') : ExecuteFrame s s' :=
  ⟨h'.i.trans h.i, h'.dec.trans h.dec, h'.reports.trans h.reports, h'.fault⟩

theorem stepT_executeFrame (hinv : s.Inv c) (hrun : s.running = true) (ht : 2 ≤ s.t) (hstep : stepT c s = .next s') :
    ExecuteFrame s s' := by
  have hfault := (running_iff.mp hrun).2
  obtain rfl | ⟨cw, -, hword, hnamed, rfl⟩ := stepT_cases_of_inv hinv hstep
  · exact ⟨rfl, rfl, rfl, .inl hfault⟩
  · obtain ⟨hi, hdec, hreports⟩ := tState_execute_frame c (currentWord_execute hinv hword ht) ht
    refine ⟨hi, hdec, hreports, ?_⟩
    obtain ⟨k, hk, h⟩ | ⟨hchecks, -⟩ := tState_cases c cw s
    · exact .inr (by rw [h, State.raise_fault, fault_eq_pcOverflow_of_named hnamed hk])
    · exact .inl ((tState_fault_of_no_fault hchecks).trans hfault)

theorem runTStates_executeFrame {n : Nat} (hinv : s.Inv c) (hrun : s.running = true) (ht : 2 ≤ s.t)
    (h : runTStates c n s = .next s') : ExecuteFrame s s' := by
  induction n generalizing s with
  | zero =>
    cases h
    exact ⟨rfl, rfl, rfl, .inl (running_iff.mp hrun).2⟩
  | succ n ih =>
    obtain ⟨s₁, hstep⟩ := exists_stepT_of_runTStates h
    have hframe := stepT_executeFrame hinv hrun ht hstep
    rw [runTStates_succ hstep] at h
    split_ifs at h with hgoesOn
    · obtain ⟨hfault, hne⟩ : s₁.fault = none ∧ s₁.t ≠ 0 := by simpa using hgoesOn
      have hinv₁ := stepT_inv hinv hstep
      have ht₁ : 2 ≤ s₁.t := (stepT_index hrun hstep hfault).elim (fun h => absurd h hne) (by omega)
      exact hframe.trans (ih hinv₁ (running_of_inv hinv₁ hfault hne) ht₁ h)
    · cases h
      exact hframe

end

/-- Settles O21: the 7 T-states of the bound reach past the last index that the invariant allows. -/
theorem instructionStepReachesTheBoundary : Obligations.InstructionStepReachesTheBoundary := fun _ s hinv hrun =>
  runTStates_ends hinv hrun (Nat.le_add_left 7 s.t)

/-- Settles O22: the loop ends as in O21, and every T-state of it is one of execution. -/
theorem midInstructionStepFinishesIt : Obligations.MidInstructionStepFinishesIt := by
  intro c s s' hinv hrun ht hstep
  obtain ⟨hi, hdec, hreports, hfault⟩ := runTStates_executeFrame hinv hrun ht hstep
  obtain ⟨s₁, hends, hend⟩ := instructionStepReachesTheBoundary c s hinv hrun
  obtain rfl : s₁ = s' := Host.Outcome.next.inj (hends.symm.trans hstep)
  exact ⟨hi, hdec, hreports, hend.imp_right fun h => hfault.resolve_left h⟩

end Sys2Proof.Machine
end

section
/-! How many T-states an instruction takes (`70_reset_and_hazards.md` section 6): the words of its microprogram are run one by
one, and only the last one of them ends it. -/

namespace Sys2Proof.Machine

/-- What makes every word of a microprogram but the last one leave the machine running: HALT is last and only the first word
increments PC. -/
structure StraightProgram (ws : List ControlWord) : Prop where
  named : ws ⊆ executeWords
  halt : ∀ cw ∈ ws.dropLast, cw.halt = false
  incPc : ∀ cw ∈ ws.tail, cw.incPc = false

theorem dispatch_straight (c : Config) (op : Byte) : StraightProgram (dispatch c op).1 where
  named := dispatch_subset_executeWords c op
  halt := by
    obtain h | h := dispatch_halt_cases c op
    · rw [h]
      exact fun _ hcw => absurd hcw List.not_mem_nil
    · exact fun cw hcw => h cw (List.mem_of_mem_dropLast hcw)
  incPc := dispatch_tail_incPc c op

theorem StraightProgram.tail {cw : ControlWord} {ws : List ControlWord} (h : StraightProgram (cw :: ws)) :
    StraightProgram ws where
  named := fun _ hcw => h.named (List.mem_cons_of_mem _ hcw)
  halt := fun cw' hcw => h.halt cw' (by
    rw [List.dropLast_cons_of_ne_nil (by rintro rfl; exact absurd hcw List.not_mem_nil)]
    exact List.mem_cons_of_mem _ hcw)
  incPc := fun cw' hcw => h.incPc cw' (List.mem_of_mem_tail hcw)

section
variable {c : Config} {s : State} {cw : ControlWord} {ws : List ControlWord}

/-- A word with more words behind it moves on to them, if its increment of PC is in range. -/
theorem State.Executing.stepT_on (hs : s.Executing (cw :: ws)) (hprogram : StraightProgram (cw :: ws)) (hne : ws ≠ [])
    (hpc : cw.incPc = true → pcIncFaults c s.pc = false) :
    ∃ s₁, stepT c s = .next s₁ ∧ s₁.Executing ws ∧ s₁.t = s.t + 1 := by
  obtain ⟨hhalted, hfault⟩ := running_iff.mp hs.running
  have hnamed : cw ∈ fetch0 :: fetch1 :: executeWords :=
    List.mem_cons_of_mem _ (List.mem_cons_of_mem _ (hprogram.named List.mem_cons_self))
  have hhalt : cw.halt = false :=
    hprogram.halt cw (by rw [List.dropLast_cons_of_ne_nil hne]; exact List.mem_cons_self)
  have hchecks : tStateFault c cw s = none := by
    rw [tStateFault_of_named c s hnamed]
    cases hinc : cw.incPc with
    | false => rfl
    | true => simp [hpc hinc]
  have hclock : (clock cw (busOf cw s) s).running = true :=
    running_iff.mpr ⟨by rw [clock_halted, hhalted, hhalt]; rfl, hfault⟩
  refine ⟨_, ?_, hs.tail hclock rfl, rfl⟩
  rw [hs.stepT_eq, tState_of_no_fault hchecks, hs.advance_eq c (clock_dec ..) (clock_t ..), if_neg hne]

/-- After fewer T-states than there are words left the machine executes the words behind these, and the loop goes on there. -/
theorem State.Executing.runTStates_on (hs : s.Executing ws) (hprogram : StraightProgram ws)
    (hpc : ∀ cw, ws.head? = some cw → cw.incPc = true → pcIncFaults c s.pc = false) {k : Nat} (hk : k < ws.length) :
    ∃ s', s'.Executing (ws.drop k) ∧ s'.t = s.t + k ∧ ∀ n, runTStates c (k + n) s = runTStates c n s' := by
  induction k generalizing s ws with
  | zero => exact ⟨s, hs, rfl, fun n => by rw [Nat.zero_add]⟩
  | succ k ih =>
    obtain ⟨cw, ws, rfl⟩ : ∃ cw rest, ws = cw :: rest := List.exists_cons_of_length_pos (by omega)
    rw [List.length_cons] at hk
    obtain ⟨s₁, hstep, hs₁, ht₁⟩ :=
      hs.stepT_on hprogram (List.ne_nil_of_length_pos (by omega)) (hpc cw rfl)
    obtain ⟨s', hs', ht', hloop⟩ := ih hs₁ hprogram.tail
      (fun cw' hcw' hinc => absurd (hprogram.incPc cw' (List.mem_of_mem_head? hcw')) (by simp [hinc])) (by omega)
    refine ⟨s', hs', by omega, fun n => ?_⟩
    rw [Nat.add_right_comm, runTStates_succ_of_underWay hstep hs₁.fault_eq_none (by omega), hloop]

/-- At the last word the loop stops after one T-state, whatever fuel it has. -/
theorem State.Executing.runTStates_one (hs : s.Executing [cw]) (n : Nat) :
    runTStates c (n + 1) s = runTStates c 1 s := by
  have hstep := hs.stepT_eq c
  obtain ⟨k, -, h⟩ | ⟨-, h⟩ := tState_cases c cw s
  · rw [h] at hstep
    rw [runTStates_succ_of_raise hstep n, runTStates_succ_of_raise hstep 0]
  · rw [h, hs.advance_eq c (clock_dec ..) (clock_t ..), if_pos rfl] at hstep
    rw [runTStates_succ hstep, runTStates_succ hstep]
    simp

/-- Any fuel that is enough for the words left gives the same answer as exactly that much. -/
theorem State.Executing.runTStates_length (hs : s.Executing ws) (hprogram : StraightProgram ws) (hne : ws ≠ [])
    (hpc : ∀ cw, ws.head? = some cw → cw.incPc = true → pcIncFaults c s.pc = false) {n : Nat} (hn : ws.length ≤ n) :
    runTStates c ws.length s = runTStates c n s := by
  have hpos := List.length_pos_iff.mpr hne
  obtain ⟨s', hs', -, hloop⟩ := hs.runTStates_on hprogram hpc (Nat.sub_lt hpos Nat.one_pos)
  rw [List.drop_length_sub_one hne] at hs'
  calc runTStates c ws.length s
      = runTStates c (ws.length - 1 + 1) s := by rw [Nat.sub_add_cancel hpos]
    _ = runTStates c 1 s' := hloop 1
    _ = runTStates c (n - ws.length + 1) s' := (hs'.runTStates_one _).symm
    _ = runTStates c (ws.length - 1 + (n - ws.length + 1)) s := (hloop _).symm
    _ = runTStates c n s := by congr 1; omega

end

@[simp] theorem State.reportIf_pc (s : State) (reported : Bool) (op : Byte) : (s.reportIf reported op).pc = s.pc := by
  cases reported <;> rfl

/-- The state fetch T1 leaves where there is a microprogram: it executes all of it. -/
theorem executing_of_fetch (c : Config) {s : State} {op : Byte} {ops : List ControlWord} {reported : Bool}
    (hrun : s.running = true) (hdispatch : dispatch c op = (ops, reported)) :
    ((s.afterFetch c op).reportIf reported op).Executing ops :=
  ⟨(State.reportIf_running _ _ _).trans hrun, [], by simp [hdispatch], by simp⟩

/-- Settles O6: past the fetch the words are run one by one, and below 0xFE neither increment of PC faults. -/
theorem instructionTakesItsTStates : Obligations.InstructionTakesItsTStates := by
  intro c s hboundary htop hbelow
  obtain ⟨hrun, -⟩ := atBoundary_iff.mp hboundary
  have hpc := pcIncFaults_eq_false_of_ne c htop
  have hpc' : pcIncFaults c (inc s.pc) = false := pcIncFaults_eq_false_of_ne c fun h => hbelow (inc_eq_top_iff.mp h)
  rcases hdispatch : dispatch c (s.mem.read s.pc) with ⟨ops, reported⟩
  have hprogram : StraightProgram ops := by simpa [hdispatch] using dispatch_straight c (s.mem.read s.pc)
  have hlength : ops.length ≤ 5 := by simpa [hdispatch] using dispatch_length_le c (s.mem.read s.pc)
  have hfetch (n : Nat) := runTStates_decode n hboundary rfl hdispatch hpc
  have hexec := executing_of_fetch c hrun hdispatch
  have hfirst : ∀ cw, ops.head? = some cw → cw.incPc = true →
      pcIncFaults c ((s.afterFetch c (s.mem.read s.pc)).reportIf reported (s.mem.read s.pc)).pc = false :=
    fun _ _ _ => by simpa using hpc'
  simp only [instrTStates, hdispatch, Nat.add_comm 2]
  refine ⟨?_, fun k hk hlt => ?_⟩
  · rw [hfetch, stepInstr, hfetch 5]
    by_cases hops : ops = []
    · rw [if_pos hops, if_pos hops]
    · rw [if_neg hops, if_neg hops, hexec.runTStates_length hprogram hops hfirst hlength]
  · obtain rfl | ⟨j, rfl⟩ : k = 1 ∨ ∃ j, k = j + 2 := by
      obtain rfl | hk : k = 1 ∨ 2 ≤ k := by omega
      · exact .inl rfl
      · exact .inr ⟨k - 2, by omega⟩
    · have hT0 := fetchT0 c s hboundary
      rw [if_neg (by simp [hpc])] at hT0
      have hfault := (running_iff.mp hrun).2
      exact ⟨_, runTStates_succ_of_underWay hT0 hfault Nat.one_ne_zero 0, rfl, hfault⟩
    · have hj : j < ops.length := by omega
      obtain ⟨s', hs', ht', hloop⟩ := hexec.runTStates_on hprogram hfirst hj
      refine ⟨s', ?_, ht'.trans (by simp [Nat.add_comm]), hs'.fault_eq_none⟩
      rw [hfetch, if_neg (List.ne_nil_of_length_pos (by omega))]
      exact hloop 0

end Sys2Proof.Machine
end

section
/-! The two passes of the assembler count the same bytes (`30_encoding.md` R75, R78): the length of a code line depends on
whether it has an operand, and on nothing the label table can say. -/

namespace Sys2Proof.Machine

/-- The bytes a code line stands for, by whether it has an operand (R56, R78). -/
def codeLength (operand : Option (List Char)) : Nat := if operand.isSome then 2 else 1

theorem encode_length_of_toInstr {f : Form} {i : Instr} (h : f.toInstr = some i) :
    (encode i).length = if f.operand.isSome then 2 else 1 := by
  unfold Form.toInstr at h
  split_ifs at h with hwf
  obtain ⟨-, hoperand, -⟩ := form_wellFormed_iff.mp hwf
  rw [encode_length, form_of_instrOfRow h, hoperand]

theorem encodeLine_length {symbols : SymbolTable} {mn : Mnemonic} {operand : Option (List Char)} {bytes : List Byte}
    (h : encodeLine symbols mn operand = .ok bytes) : bytes.length = codeLength operand := by
  cases operand with
  | none =>
    simp only [encodeLine] at h
    split at h
    · next hform => cases h; exact encode_length_of_toInstr hform
    · cases h
  | some text =>
    simp only [encodeLine] at h
    split_ifs at h
    split at h
    · cases h
    · split at h
      · cases h
      · cases h
      · split at h
        · next hform => cases h; exact encode_length_of_toInstr hform
        · cases h

/-- Only an operand can wait for a label. -/
theorem isSome_of_undefinedLabel {symbols : SymbolTable} {mn : Mnemonic} {operand : Option (List Char)}
    {name text : List Char} (h : encodeLine symbols mn operand = .error (.undefinedLabel name text)) :
    operand.isSome = true := by
  cases operand with
  | some text => rfl
  | none =>
    simp only [encodeLine] at h
    split at h <;> cases h

theorem except_map_eq_ok {ε α β : Type} {f : α → β} {x : Except ε α} {y : β} (h : x.map f = .ok y) :
    ∃ a, x = .ok a ∧ f a = y := by
  cases x with
  | error e => cases h
  | ok a => cases h; exact ⟨a, rfl, rfl⟩

/-! Pass 1, line by line. -/

section
variable {rest : List SourceLine} {offset : Nat} {table symbols : SymbolTable}

theorem collectLabels_label {name : List Char} (h : collectLabels (.label name :: rest) offset table = .ok symbols) :
    table.lookup name = none ∧ collectLabels rest offset (table ++ [(name, offset)]) = .ok symbols := by
  rw [collectLabels] at h
  split_ifs at h with hknown
  exact ⟨Option.not_isSome_iff_eq_none.mp hknown, h⟩

/-- A code line moves the offset on by its length, whether its speculative encoding succeeds or waits for a label. -/
theorem collectLabels_code {mn : Mnemonic} {operand : Option (List Char)}
    (h : collectLabels (.code mn operand :: rest) offset table = .ok symbols) :
    collectLabels rest (offset + codeLength operand) table = .ok symbols := by
  rw [collectLabels] at h
  split at h
  · next bytes hencode => rwa [encodeLine_length hencode] at h
  · next hencode =>
    rwa [codeLength, if_pos (isSome_of_undefinedLabel hencode)]
  · cases h

/-- Pass 1 only adds to its table. -/
theorem collectLabels_extends {lines : List SourceLine} (h : collectLabels lines offset table = .ok symbols) :
    ∃ more, symbols = table ++ more := by
  induction lines generalizing offset table with
  | nil => cases h; exact ⟨[], by simp⟩
  | cons line lines ih =>
    cases line with
    | label name =>
      obtain ⟨more, rfl⟩ := ih (collectLabels_label h).2
      exact ⟨(name, offset) :: more, by simp⟩
    | bytes data => exact ih h
    | code mn operand => exact ih (collectLabels_code h)

/-- Where pass 2 emits bytes for the first lines, pass 1 reaches the lines after them with their number as the offset. -/
theorem collectLabels_append {before : List SourceLine} {final : SymbolTable} {bytes : List Byte}
    (hcollect : collectLabels (before ++ rest) offset table = .ok symbols) (hemit : emitLines final before = .ok bytes) :
    ∃ table', collectLabels rest (offset + bytes.length) table' = .ok symbols := by
  induction before generalizing offset table bytes with
  | nil => cases hemit; exact ⟨table, hcollect⟩
  | cons line before ih =>
    cases line with
    | label name => exact ih (collectLabels_label hcollect).2 hemit
    | bytes data =>
      obtain ⟨more, hmore, rfl⟩ := except_map_eq_ok hemit
      rw [List.length_append, ← Nat.add_assoc]
      exact ih hcollect hmore
    | code mn operand =>
      rw [emitLines] at hemit
      split at hemit
      · next encoded hencode =>
        obtain ⟨more, hmore, rfl⟩ := except_map_eq_ok hemit
        rw [List.length_append, encodeLine_length hencode, ← Nat.add_assoc]
        exact ih (collectLabels_code hcollect) hmore
      · cases hemit

end

/-- Settles O52: pass 1 reaches the label with the number of the bytes before it, records it for a name not yet in the table,
and only adds to the table afterwards. -/
theorem labelAddressesAreExact : Obligations.LabelAddressesAreExact := by
  intro before after name symbols bytes hcollect hemit
  obtain ⟨table, hlabel⟩ := collectLabels_append hcollect hemit
  obtain ⟨hnew, hafter⟩ := collectLabels_label hlabel
  obtain ⟨more, rfl⟩ := collectLabels_extends hafter
  simp [List.lookup_append, hnew]

end Sys2Proof.Machine
end

section
/-! The text of every assembly error is a piece of the source (`30_encoding.md` R77): lines are pieces of it, what parsing keeps
of a line is a piece of the line, and the passes report what parsing kept. -/

namespace Sys2Proof.Machine

/-- The lines of a text: the first one begins it, and every one is a piece of it. -/
theorem splitLines_pieces (source : List Char) :
    ∃ line lines, splitLines source = line :: lines ∧ line <+: source ∧ ∀ l ∈ lines, l <:+: source := by
  induction source with
  | nil => exact ⟨[], [], rfl, List.prefix_rfl, fun _ h => absurd h List.not_mem_nil⟩
  | cons ch source ih =>
    obtain ⟨line, lines, hsplit, hline, hlines⟩ := ih
    by_cases hch : ch = '\n'
    · refine ⟨[], line :: lines, by rw [splitLines, if_pos hch, hsplit], List.nil_prefix, fun l hl => ?_⟩
      obtain rfl | hl := List.mem_cons.mp hl
      · exact List.infix_cons hline.isInfix
      · exact List.infix_cons (hlines l hl)
    · exact ⟨ch :: line, lines, by rw [splitLines, if_neg hch, hsplit], List.cons_prefix_cons.mpr ⟨rfl, hline⟩,
        fun l hl => List.infix_cons (hlines l hl)⟩

theorem splitLines_infix {source line : List Char} (h : line ∈ splitLines source) : line <:+: source := by
  obtain ⟨line₀, lines, hsplit, hline₀, hlines⟩ := splitLines_pieces source
  rw [hsplit] at h
  obtain rfl | h := List.mem_cons.mp h
  · exact hline₀.isInfix
  · exact hlines line h

theorem mnemonicSpelling_of_mnemonicOf {word : List Char} {mn : Mnemonic} (h : mnemonicOf word = some mn) :
    mnemonicSpelling mn = word := by
  simpa using List.find?_some h

/-- What a later error of a parsed line reports is a piece of the text: a label's name, or a code line's operand or, without
one, its mnemonic. -/
def Quotes (text : List Char) : SourceLine → Prop
  | .label name => name <:+: text
  | .bytes _ => True
  | .code mn operand => operand.getD (mnemonicSpelling mn) <:+: text

theorem Quotes.mono {text text' : List Char} {line : SourceLine} (h : Quotes text line) (htext : text <:+: text') :
    Quotes text' line := by
  cases line with
  | label name => exact List.IsInfix.trans h htext
  | bytes data => trivial
  | code mn operand => exact List.IsInfix.trans h htext

/-- What a parse of the text answers has the property, and the error it answers reports a piece of the text. -/
def ParsesWithin {α : Type} (text : List Char) (quotes : α → Prop) (result : Except AsmError α) : Prop :=
  (∀ a, result = .ok a → quotes a) ∧ ∀ e, result = .error e → e.text <:+: text

theorem ParsesWithin.ok {α : Type} {text : List Char} {quotes : α → Prop} {a : α} (h : quotes a) :
    ParsesWithin text quotes (.ok a) :=
  ⟨fun _ heq => Except.ok.inj heq ▸ h, fun _ heq => (nomatch heq)⟩

theorem ParsesWithin.error {α : Type} {text : List Char} {quotes : α → Prop} {e : AsmError} (h : e.text <:+: text) :
    ParsesWithin text quotes (.error e) :=
  ⟨fun _ heq => (nomatch heq), fun _ heq => Except.error.inj heq ▸ h⟩

theorem parseCode_within (line : List Char) : ParsesWithin line (Quotes line) (parseCode line) := by
  have hword : line.takeWhile (fun ch => !isBlank ch) <:+: line := (List.takeWhile_prefix _).isInfix
  have hoperand : trimBlanks (line.drop (line.takeWhile (fun ch => !isBlank ch)).length) <:+: line :=
    (trimBlanks_infix _).trans (List.drop_suffix _ _).isInfix
  unfold parseCode
  dsimp only
  split_ifs with hbyte hempty
  · split
    · exact .ok trivial
    · exact .error List.infix_rfl
  · split
    · exact .error hword
    · next hmn =>
      refine .ok ?_
      rwa [Quotes, Option.getD_none, mnemonicSpelling_of_mnemonicOf hmn]
  · split
    · exact .error hword
    · exact .ok hoperand

/-- What a line is parsed to, if it is not blank. -/
theorem parseLine_within (line : List Char) :
    ParsesWithin line (fun parsed => ∀ l ∈ parsed, Quotes line l) (parseLine line) := by
  have hclean := cleanLine_infix line
  unfold parseLine
  dsimp only
  split_ifs with hblank hcolon hname
  · exact .ok fun _ h => nomatch h
  · refine .ok fun l hl => ?_
    cases hl
    exact (List.dropLast_prefix _).isInfix.trans hclean
  · exact .error hclean
  · obtain ⟨hok, herror⟩ := parseCode_within (cleanLine line)
    cases hcode : parseCode (cleanLine line) with
    | error e => exact .error ((herror e hcode).trans hclean)
    | ok l =>
      refine .ok fun l' hl' => ?_
      cases hl'
      exact (hok l hcode).mono hclean

theorem parseLines_within {source : List Char} {lines : List (List Char)} (h : ∀ line ∈ lines, line <:+: source) :
    ParsesWithin source (fun parsed => ∀ l ∈ parsed, Quotes source l) (parseLines lines) := by
  induction lines with
  | nil => exact .ok fun _ hl => absurd hl List.not_mem_nil
  | cons line lines ih =>
    obtain ⟨hline, hlines⟩ := List.forall_mem_cons.mp h
    obtain ⟨hok, herror⟩ := parseLine_within line
    obtain ⟨hoks, herrors⟩ := ih hlines
    rw [parseLines]
    split
    · next hparse => exact .error ((herror _ hparse).trans hline)
    · next hparses => exact .error (herrors _ hparses)
    · next hparses => exact .ok (hoks _ hparses)
    · next hparse hparses =>
      exact .ok (List.forall_mem_cons.mpr ⟨(hok _ hparse _ rfl).mono hline, hoks _ hparses⟩)

/-! The passes. -/

section
variable {source : List Char} {lines : List SourceLine} {e : AsmError}

theorem encodeLine_error_infix {symbols : SymbolTable} {mn : Mnemonic} {operand : Option (List Char)}
    (hquotes : Quotes source (.code mn operand)) (h : encodeLine symbols mn operand = .error e) : e.text <:+: source := by
  rw [encodeLine_error_text h]
  exact hquotes

theorem collectLabels_error_infix {offset : Nat} {table : SymbolTable} (hquotes : ∀ l ∈ lines, Quotes source l)
    (h : collectLabels lines offset table = .error e) : e.text <:+: source := by
  induction lines generalizing offset table with
  | nil => cases h
  | cons line lines ih =>
    obtain ⟨hline, hlines⟩ := List.forall_mem_cons.mp hquotes
    rw [collectLabels.eq_def] at h
    cases line with
    | label name =>
      dsimp only at h
      split_ifs at h
      · cases h; exact hline
      · exact ih hlines h
    | bytes data => exact ih hlines h
    | code mn operand =>
      dsimp only at h
      split at h
      · exact ih hlines h
      · exact ih hlines h
      · next hencode => cases h; exact encodeLine_error_infix hline hencode

theorem except_map_eq_error {ε α β : Type} {f : α → β} {x : Except ε α} {e : ε} (h : x.map f = .error e) :
    x = .error e := by
  cases x with
  | error e' => cases h; rfl
  | ok a => cases h

theorem emitLines_error_infix {symbols : SymbolTable} (hquotes : ∀ l ∈ lines, Quotes source l)
    (h : emitLines symbols lines = .error e) : e.text <:+: source := by
  induction lines with
  | nil => cases h
  | cons line lines ih =>
    obtain ⟨hline, hlines⟩ := List.forall_mem_cons.mp hquotes
    cases line with
    | label name => exact ih hlines h
    | bytes data => exact ih hlines (except_map_eq_error h)
    | code mn operand =>
      rw [emitLines] at h
      split at h
      · exact ih hlines (except_map_eq_error h)
      · next hencode => cases h; exact encodeLine_error_infix hline hencode

end

/-- Settles O53: an error comes from a line's shape, from pass 1 or from pass 2, and each reports a piece of a line. -/
theorem assemblyErrorsQuoteTheSource : Obligations.AssemblyErrorsQuoteTheSource := by
  intro source e h
  obtain ⟨hparsed, herror⟩ := parseLines_within (source := source) fun _ hline => splitLines_infix hline
  rw [assemble] at h
  split at h
  · next hparse => cases h; exact herror _ hparse
  · next hparse =>
    split at h
    · next hcollect => cases h; exact collectLabels_error_infix (hparsed _ hparse) hcollect
    · exact emitLines_error_infix (hparsed _ hparse) h

end Sys2Proof.Machine
end
